-- ==== Sys2Proof/Word.lean ====
section
/-! DEFINITION. The one word of the hardware: the byte (spec 00_scope.md R8, 20_memory.md R42). -/

namespace Sys2Proof

/-- A byte: a field element, a mask entry, an opcode, a status, a parity count, a degree, a count or a
position (20_memory.md R42: "Every datum of this hardware is exactly one byte wide"). -/
abbrev Byte := BitVec 8

end Sys2Proof
end

