-- ==== Sys2Proof/Config.lean ====
section
/-! DEFINITION. The fixed constants of the hardware (spec 00_scope.md R5) and the free values of the model. -/

namespace Sys2Proof

/-- `FIELD_POLY`: the field polynomial x⁸+x⁷+x²+x+1, bit i the coefficient of x^i (R5). -/
abbrev Config.fieldPoly : BitVec 9 := 0x187#9

/-- `FIELD_RED`: the field polynomial x⁸+x⁷+x²+x+1 without its x⁸ term (R5). -/
abbrev Config.fieldRed : Byte := 0x87#8

/-- `A`: the primitive element (R5). -/
abbrev Config.primitive : Byte := 0xAC#8

/-- `FCR`: the exponent of the first generator root (R5). -/
abbrev Config.fcr : Nat := 112

/-- `FORNEY_EXP`: the exponent of the cached constant `a^111`, one below the first root's (R5). -/
abbrev Config.forneyExp : Nat := 111

/-- `NCW`: the codeword length in symbols (R5). -/
abbrev Config.ncw : Nat := 255

/-- `N_MIN`: the least parity count (R5). -/
abbrev Config.nMin : Nat := 1

/-- `N_MAX`: the greatest parity count (R5). -/
abbrev Config.nMax : Nat := 254

/-- FREE VALUE (log 2): what the multiplication table gives at an address that holds no value
(10_state.md R37; no rule of the spec reads one). -/
opaque Config.emptyMultCell : Nat → Byte

/-- FREE VALUE (log 2): what the inverse table gives at an address that holds no value (R37). -/
opaque Config.emptyInvtCell : Nat → Byte

/-- FREE VALUE (log 2): what `A111` gives while it holds no value (R37). -/
opaque Config.emptyA111 : Byte

end Sys2Proof
end

