-- ==== Sys2Proof/Syntax.lean ====
section
/-! DEFINITION. The fifteen commands: opcodes and operands (spec 30_encoding.md R60, R63, R64). -/

namespace Sys2Proof

/-- The fifteen operations of R60, by name. -/
inductive Opcode where
  | init | gfmul | gfinv | gflog | gfexp | gfpow111 | peval | pmul
  | genpoly | encode | synd | eraloc | euclid | finderr | decode
  deriving DecidableEq, Repr

/-- One command with its operands (R63), one constructor per row of opcode_table.json. A polynomial operand is its
coefficient list `c[0..D]`, ascending (R64); a message, word or mask is its list of bytes, ascending (R42). -/
inductive Instr where
  /-- `INIT`, format F0 (R92). -/
  | init
  /-- `GFMUL a, b`, format F2 (R94). -/
  | gfmul (a b : Byte)
  /-- `GFINV x`, format F1 (R95). -/
  | gfinv (x : Byte)
  /-- `GFLOG x`, format F1 (R96). -/
  | gflog (x : Byte)
  /-- `GFEXP e`, format F1 (R97). -/
  | gfexp (e : Byte)
  /-- `GFPOW111 x`, format F1 (R98). -/
  | gfpow111 (x : Byte)
  /-- `PEVAL x, p`, format FXP (R111). -/
  | peval (x : Byte) (p : List Byte)
  /-- `PMUL p, q`, format FPP (R113). -/
  | pmul (p q : List Byte)
  /-- `GENPOLY n`, format FN (R121). -/
  | genpoly (n : Byte)
  /-- `ENCODE n, message`, format FE (R123). -/
  | encode (n : Byte) (message : List Byte)
  /-- `SYND n, word`, format FW (R131). -/
  | synd (n : Byte) (word : List Byte)
  /-- `ERALOC mask`, format FM (R133). -/
  | eraloc (mask : List Byte)
  /-- `EUCLID n, s, P`, format FU (R142). -/
  | euclid (n s : Byte) (product : List Byte)
  /-- `FINDERR d, sigma, omega`, format FF (R152). -/
  | finderr (d : Byte) (sigma omega : List Byte)
  /-- `DECODE n, received, mask`, format FD (R161). -/
  | decode (n : Byte) (received mask : List Byte)
  deriving DecidableEq, Repr

/-- The operation a command asks for. -/
def Instr.opcode : Instr → Opcode
  | .init => .init
  | .gfmul _ _ => .gfmul
  | .gfinv _ => .gfinv
  | .gflog _ => .gflog
  | .gfexp _ => .gfexp
  | .gfpow111 _ => .gfpow111
  | .peval _ _ => .peval
  | .pmul _ _ => .pmul
  | .genpoly _ => .genpoly
  | .encode _ _ => .encode
  | .synd _ _ => .synd
  | .eraloc _ => .eraloc
  | .euclid _ _ _ => .euclid
  | .finderr _ _ _ => .finderr
  | .decode _ _ _ => .decode

end Sys2Proof
end

