-- ==== Sys2Proof/WellFormed.lean ====
section
/-! DEFINITION. Which commands a packet can carry with all its fields present and legal (spec 30_encoding.md R63, R64, R71). -/

namespace Sys2Proof

/-- A legal parity count, 1 to 254 (R71). -/
def parityInRange (n : Byte) : Bool := decide (Config.nMin ≤ n.toNat) && decide (n.toNat ≤ Config.nMax)

/-- A coefficient list that a polynomial field can carry: 1 to 256 coefficients (R64: D is 0 to 255). -/
def polyFits (p : List Byte) : Bool := decide (1 ≤ p.length) && decide (p.length ≤ 256)

/-- A codeword, received word or mask has exactly 255 entries (10_state.md R30, R31). -/
def wordFits (w : List Byte) : Bool := decide (w.length = Config.ncw)

/-- Every operand is one that the command's format carries (R63) and R71 allows. -/
def Instr.wellFormed : Instr → Bool
  | .init => true
  | .gfmul _ _ => true
  | .gfinv _ => true
  | .gflog _ => true
  | .gfexp _ => true
  | .gfpow111 _ => true
  | .peval _ p => polyFits p
  | .pmul p q => polyFits p && polyFits q
  | .genpoly n => parityInRange n
  | .encode n message => parityInRange n && decide (message.length = Config.ncw - n.toNat)
  | .synd n word => parityInRange n && wordFits word
  | .eraloc mask => wordFits mask
  | .euclid n _ product => parityInRange n && polyFits product
  | .finderr _ sigma omega => polyFits sigma && polyFits omega
  | .decode n received mask => parityInRange n && wordFits received && wordFits mask

/-- `Instr.wellFormed` as a proposition. -/
abbrev Instr.WellFormed (i : Instr) : Prop := i.wellFormed = true

end Sys2Proof
end

