-- ==== Sys2Proof/Decode.lean ====
section
/-! DEFINITION. From the bytes of a command packet to a command, and back (spec 30_encoding.md R60 to R68, 60_exceptions.md R173). -/

namespace Sys2Proof

/-- Why a packet gives no command. -/
inductive DecodeError where
  /-- No byte at all: no packet (R62: a packet "has at least one byte"). Raised by `decode []` only. -/
  | emptyPacket
  /-- Byte 0 is a reserved opcode (R67). -/
  | reservedOpcode (b : Byte)
  /-- The packet is not as long as the operation's format requires (R68). -/
  | wrongLength (op : Opcode)
  deriving DecidableEq, Repr

/-- The opcode byte of each operation (R60). -/
def Opcode.code : Opcode → Byte
  | .init => 0x00#8
  | .gfmul => 0x01#8
  | .gfinv => 0x02#8
  | .gflog => 0x03#8
  | .gfexp => 0x04#8
  | .gfpow111 => 0x05#8
  | .peval => 0x08#8
  | .pmul => 0x09#8
  | .genpoly => 0x10#8
  | .encode => 0x11#8
  | .synd => 0x12#8
  | .eraloc => 0x13#8
  | .euclid => 0x14#8
  | .finderr => 0x15#8
  | .decode => 0x16#8

/-- The rows of R60. -/
def opcodeTable : List Opcode :=
  [.init, .gfmul, .gfinv, .gflog, .gfexp, .gfpow111, .peval, .pmul,
   .genpoly, .encode, .synd, .eraloc, .euclid, .finderr, .decode]

/-- The operation an opcode byte stands for; none for a reserved one (R60, R67). -/
def opcodeOfByte (b : Byte) : Option Opcode := opcodeTable.find? fun op => op.code == b

/-- A parity count the core accepts: 1 to 254 (R71). -/
def parityLegal (n : Byte) : Bool := decide (1 ≤ n.toNat) && decide (n.toNat ≤ 254)

/-- Read `k` bytes of a packet, or fail where they run past its end (R173 step 3). -/
def takeBytes (k : Nat) (bs : List Byte) : Option (List Byte × List Byte) :=
  if k ≤ bs.length then some (bs.take k, bs.drop k) else none

/-- Read a polynomial field: its degree byte D, then D + 1 coefficients (R64). -/
def takePoly : List Byte → Option (List Byte × List Byte)
  | [] => none
  | d :: bs => takeBytes (d.toNat + 1) bs

/-- Read a one-byte field, then go on with it. -/
def withByte (bs : List Byte) (k : Byte → List Byte → Option (Instr × List Byte)) : Option (Instr × List Byte) :=
  match bs with
  | [] => none
  | b :: rest => k b rest

/-- Read `n` bytes, then go on with them. -/
def withBytes (n : Nat) (bs : List Byte) (k : List Byte → List Byte → Option (Instr × List Byte)) :
    Option (Instr × List Byte) :=
  match takeBytes n bs with
  | none => none
  | some (w, rest) => k w rest

/-- Read a polynomial field, then go on with it. -/
def withPoly (bs : List Byte) (k : List Byte → List Byte → Option (Instr × List Byte)) : Option (Instr × List Byte) :=
  match takePoly bs with
  | none => none
  | some (p, rest) => k p rest

/-- Read the parity count, then go on where it is legal. Where it is not, no later byte is looked at
(R173 step 3): the command is `illegal n`, whose operation answers ERR_PARAM (log 3). -/
def withParity (bs : List Byte) (illegal : Byte → Instr) (k : Byte → List Byte → Option (Instr × List Byte)) :
    Option (Instr × List Byte) :=
  withByte bs fun n rest => if parityLegal n then k n rest else some (illegal n, [])

/-- The fields of each format, read left to right (R63, R173 step 3): the command and the bytes left over. -/
def readFields (op : Opcode) (bs : List Byte) : Option (Instr × List Byte) :=
  match op with
  | .init => some (.init, bs)
  | .gfmul => withByte bs fun a rest => withByte rest fun b rest => some (.gfmul a b, rest)
  | .gfinv => withByte bs fun x rest => some (.gfinv x, rest)
  | .gflog => withByte bs fun x rest => some (.gflog x, rest)
  | .gfexp => withByte bs fun e rest => some (.gfexp e, rest)
  | .gfpow111 => withByte bs fun x rest => some (.gfpow111 x, rest)
  | .peval => withByte bs fun x rest => withPoly rest fun p rest => some (.peval x p, rest)
  | .pmul => withPoly bs fun p rest => withPoly rest fun q rest => some (.pmul p q, rest)
  | .genpoly => withParity bs .genpoly fun n rest => some (.genpoly n, rest)
  | .encode =>
    withParity bs (fun n => .encode n []) fun n rest =>
      withBytes (255 - n.toNat) rest fun message rest => some (.encode n message, rest)
  | .synd =>
    withParity bs (fun n => .synd n []) fun n rest =>
      withBytes 255 rest fun word rest => some (.synd n word, rest)
  | .eraloc => withBytes 255 bs fun mask rest => some (.eraloc mask, rest)
  | .euclid =>
    withParity bs (fun n => .euclid n 0#8 []) fun n rest =>
      withByte rest fun s rest => withPoly rest fun p rest => some (.euclid n s p, rest)
  | .finderr =>
    withByte bs fun d rest => withPoly rest fun sigma rest =>
      withPoly rest fun omega rest => some (.finderr d sigma omega, rest)
  | .decode =>
    withParity bs (fun n => .decode n [] []) fun n rest =>
      withBytes 255 rest fun received rest =>
        withBytes 255 rest fun mask rest => some (.decode n received mask, rest)

/-- Decode a packet, total on any bytes: opcode, fields left to right, then no byte left over (R65, R68, R173). -/
def decode : List Byte → Except DecodeError Instr
  | [] => .error .emptyPacket
  | b :: fields =>
    match opcodeOfByte b with
    | none => .error (.reservedOpcode b)
    | some op =>
      match readFields op fields with
      | some (i, []) => .ok i
      | _ => .error (.wrongLength op)

/-- The polynomial field of a coefficient list: its degree byte, then the coefficients (R64). -/
def polyField (p : List Byte) : List Byte := BitVec.ofNat 8 (p.length - 1) :: p

/-- The operand bytes of a command in the order of its format (R63). -/
def operandBytes : Instr → List Byte
  | .init => []
  | .gfmul a b => [a, b]
  | .gfinv x => [x]
  | .gflog x => [x]
  | .gfexp e => [e]
  | .gfpow111 x => [x]
  | .peval x p => x :: polyField p
  | .pmul p q => polyField p ++ polyField q
  | .genpoly n => [n]
  | .encode n message => n :: message
  | .synd n word => n :: word
  | .eraloc mask => mask
  | .euclid n s p => n :: s :: polyField p
  | .finderr d sigma omega => d :: (polyField sigma ++ polyField omega)
  | .decode n received mask => n :: (received ++ mask)

/-- The packet of a command (R62, R63). -/
def encode (i : Instr) : List Byte := i.opcode.code :: operandBytes i

/-- The length R63 gives a packet of each format, from the bytes at its offsets (R68; a byte not there counts as 0). -/
def packetLength (op : Opcode) (byteAt : Nat → Byte) : Nat :=
  match op with
  | .init => 1
  | .gfmul => 3
  | .gfinv | .gflog | .gfexp | .gfpow111 | .genpoly => 2
  | .peval => 4 + (byteAt 2).toNat
  | .pmul => 5 + (byteAt 1).toNat + (byteAt (3 + (byteAt 1).toNat)).toNat
  | .encode => 257 - (byteAt 1).toNat
  | .synd => 257
  | .eraloc => 256
  | .euclid => 5 + (byteAt 3).toNat
  | .finderr => 6 + (byteAt 2).toNat + (byteAt (4 + (byteAt 2).toNat)).toNat
  | .decode => 512

/-- The bytes of a table word, byte 0 of the packet in its lowest eight bits. -/
def tableBytes (nbits w : Nat) : List Byte :=
  (List.range ((nbits + 7) / 8)).map fun i => BitVec.ofNat 8 (w / 2 ^ (8 * i))

/-- The packet a table word stands for (log 4): its bytes, then zero operand bytes up to the length the format
requires (R68). -/
def tablePacket (nbits w : Nat) : Byte × List Byte :=
  let bs := tableBytes nbits w
  let op := bs.getD 0 0#8
  let need := match opcodeOfByte op with
    | none => 1
    | some o => packetLength o fun i => bs.getD i 0#8
  (op, bs.tail ++ List.replicate (need - max 1 bs.length) 0#8)

/-- The command the decoder reads from a table word (the host's fixed name). -/
def decodeTableWord (nbits w : Nat) : Option Instr :=
  match decode ((tablePacket nbits w).1 :: (tablePacket nbits w).2) with
  | .ok i => some i
  | .error _ => none

end Sys2Proof
end

