-- ==== Sys2Proof/Machine/State.lean ====
section
/-! DEFINITION. The state of the core as plain data (spec 10_state.md R24 to R27, R35 to R37; 30_encoding.md R62). -/

namespace Sys2Proof.Machine

/-- A table memory: (address, byte) cells, addresses strictly rising; an address that is not listed holds no value
(10_state.md R37). -/
abbrev Memory := List Host.Cell

/-- The status of a response (60_exceptions.md R170). -/
inductive Status where
  | ok
  | uncorrectable
  | errNotInit
  | errAlreadyInit
  | errOpcode
  | errParam
  | errLength
  deriving DecidableEq, Repr

/-- A response packet: its status, then its payload bytes (30_encoding.md R66). -/
structure Response where
  status : Status
  payload : List Byte
  deriving DecidableEq, Repr

/-- What the host can do to the core (10_state.md R21): present a command packet (at least one byte, R62), accept the
response, assert reset. -/
inductive HostEvent where
  | command (opcode : Byte) (fields : List Byte)
  | takeResponse
  | reset
  deriving DecidableEq, Repr

/-- Why the machine stops with a fault: never, so there is no constructor (60_exceptions.md R172: "Nothing in this
hardware is a fault in the sense of stopping the core"). Safe: every refusal and failure is a response. -/
inductive Fault where
  deriving DecidableEq, Repr

/-- Why a command has no meaning in the model. -/
inductive Refusal where
  /-- Raised by an arm of `exec` without a meaning; no arm is. Safe: nothing is claimed of such a command. -/
  | notModelled (mnemonic : String)
  deriving DecidableEq, Repr

/-- Everything the spec gives the core, and the host's coming actions. -/
structure State where
  /-- `INITD` (R24): `INIT` has completed since the last reset. -/
  initd : Bool
  /-- `MULT` (R25): 65 536 locations, entry (a, b) at address a*256 + b. -/
  mult : Memory
  /-- `INVT` (R26): 256 locations, the entry of x at address x. -/
  invt : Memory
  /-- `A111` (R27), which holds no value before `INIT` (R37). -/
  a111 : Option Byte
  /-- The response offered and not yet taken (30_encoding.md R62, 93_implementation_defined.md U11). -/
  rsp : Option Response
  /-- The MODEL's own field (log 1): what the host does next, in order. -/
  host : List HostEvent
  deriving DecidableEq, Repr

/-- What an instruction or a step answers. -/
abbrev Result := Host.Outcome State Fault Refusal

/-- The core right after reset (10_state.md R37, 70_reset_and_hazards.md R190, R191): `INITD` 0, the tables and `A111`
without value, no response. The host has presented nothing (log 1). -/
def State.reset : State :=
  { initd := false, mult := [], invt := [], a111 := none, rsp := none, host := [] }

end Sys2Proof.Machine
end

