-- ==== Sys2Proof/Machine/Flags.lean ====
section
/-! DEFINITION. The condition output of the core. It keeps no flag (spec 10_state.md R28): the only condition is the
status byte of a response (60_exceptions.md R170). -/

namespace Sys2Proof.Machine

/-- The status byte of each status (R170). -/
def Status.code : Status → Byte
  | .ok => 0x00#8
  | .uncorrectable => 0x01#8
  | .errNotInit => 0xE0#8
  | .errAlreadyInit => 0xE1#8
  | .errOpcode => 0xE2#8
  | .errParam => 0xE3#8
  | .errLength => 0xE4#8

/-- The five `ERR_` statuses are refusals (R170, R172). -/
def Status.isRefusal : Status → Bool
  | .ok | .uncorrectable => false
  | .errNotInit | .errAlreadyInit | .errOpcode | .errParam | .errLength => true

/-- The bytes of a response packet, status first (30_encoding.md R66). -/
def Response.bytes (r : Response) : List Byte := r.status.code :: r.payload

end Sys2Proof.Machine
end

