-- ==== Sys2Proof/Machine/Ops.lean ====
section
/-! DEFINITION. The named operations over the state: table memory, responses, refusals, the initialisation guard, reset
(spec 20_memory.md R40 to R47, 60_exceptions.md R172 to R177, 70_reset_and_hazards.md R190). -/

namespace Sys2Proof.Machine

/-! ### Table memory -/

/-- The number of locations of `MULT` (20_memory.md R40). -/
def multSize : Nat := 65536

/-- The number of locations of `INVT` (R40). -/
def invtSize : Nat := 256

/-- The byte a location holds; none where it holds no value (10_state.md R37). -/
def Memory.read : Memory → Nat → Option Byte
  | [], _ => none
  | (k, v) :: m, addr => if k = addr then some v else Memory.read m addr

/-- `MemWrite(space, addr, 1, v)` (00_scope.md R9), keeping the addresses strictly rising. -/
def Memory.write : Memory → Nat → Byte → Memory
  | [], addr, v => [(addr, v)]
  | (k, w) :: m, addr, v =>
    if addr < k then (addr, v) :: (k, w) :: m
    else if addr = k then (addr, v) :: m
    else (k, w) :: Memory.write m addr v

/-- The addresses rise strictly, the first of them being at least `lo` and the last below `size`. -/
def Memory.risesFrom (size : Nat) : Nat → Memory → Bool
  | _, [] => true
  | lo, (k, _) :: m => decide (lo ≤ k) && decide (k < size) && Memory.risesFrom size (k + 1) m

/-- The canonical form of a space of `size` locations. An unlisted location holds no value, so no entry can equal
what an unlisted one reads as. -/
def Memory.wf (size : Nat) (m : Memory) : Bool := Memory.risesFrom size 0 m

/-- `count` cells from address `addr` on, location i holding `f i`. -/
def Memory.cellsFrom (f : Nat → Byte) : Nat → Nat → Memory
  | _, 0 => []
  | addr, count + 1 => (addr, f addr) :: Memory.cellsFrom f (addr + 1) count

/-- The memory that the loop `for i = 0 to size - 1: MemWrite(space, i, 1, f i)` leaves, written down at once
(log 6; the loop itself is `Memory.fillLoop`, equal by `Memory.fillLoop_eq_filled`). -/
def Memory.filled (size : Nat) (f : Nat → Byte) : Memory := Memory.cellsFrom f 0 size

/-- The writing loop itself: `count` writes at rising addresses from `addr` on. -/
def Memory.fillLoop (f : Nat → Byte) : Nat → Nat → Memory → Memory
  | _, 0, m => m
  | addr, count + 1, m => Memory.fillLoop f (addr + 1) count (m.write addr (f addr))

/-- The location of the pair (a, b): `{a, b}` (20_memory.md R40). -/
def multAddr (a b : Byte) : Nat := a.toNat * 256 + b.toNat

/-- `mul(a, b)` = `MemRead(MULT, a*256 + b, 1)` (00_scope.md R10); a location without value gives a free value (log 2). -/
def tableMul (m : Memory) (a b : Byte) : Byte :=
  (m.read (multAddr a b)).getD (Config.emptyMultCell (multAddr a b))

/-- `inv(a)` = `MemRead(INVT, a, 1)` (R10); a location without value gives a free value (log 2). -/
def tableInv (m : Memory) (a : Byte) : Byte :=
  (m.read a.toNat).getD (Config.emptyInvtCell a.toNat)

/-- The table contents as the functions of the algebra see them (00_scope.md R13: "total mathematical functions of
their arguments and of the table contents"). -/
structure Field where
  /-- `mul(a, b)`, a look-up in `MULT`. -/
  mul : Byte → Byte → Byte
  /-- `inv(a)`, a look-up in `INVT`. -/
  inv : Byte → Byte
  /-- The content of `A111`. -/
  a111 : Byte

/-- The table contents of a state. -/
def State.field (s : State) : Field :=
  { mul := tableMul s.mult, inv := tableInv s.invt, a111 := s.a111.getD Config.emptyA111 }

/-! ### Responses and refusals -/

/-- `respond S, payload` (60_exceptions.md R172): the command ends, the response is offered, no other state changes. -/
def respond (st : Status) (payload : List Byte) (s : State) : Result :=
  .next { s with rsp := some ⟨st, payload⟩ }

/-- `raise S` (R172, R176), the core's one form of taking an exception: the response is the status byte alone, and
nothing is written. -/
def raise (st : Status) (s : State) : Result := respond st [] s

/-- The host takes the response (30_encoding.md R62); this is all there is to a return (60_exceptions.md R177). -/
def acceptResponse (s : State) : State := { s with rsp := none }

/-! ### Checks shared by the operations -/

/-- The initialisation check (10_state.md R24, 60_exceptions.md R173 step 2). -/
def initStatus (op : Opcode) (s : State) : Option Status :=
  match op, s.initd with
  | .init, true => some .errAlreadyInit
  | .init, false => none
  | _, false => some .errNotInit
  | _, true => none

/-- Go on where the initialisation check passes, else raise its status. -/
def guardInit (op : Opcode) (s : State) (k : Result) : Result :=
  match initStatus op s with
  | some st => raise st s
  | none => k

/-- What a packet that decodes to no command is answered (R173 steps 1 to 4). -/
def refusePacket (e : DecodeError) (s : State) : Result :=
  match e with
  | .emptyPacket => raise .errLength s
  | .reservedOpcode _ => raise .errOpcode s
  | .wrongLength op => guardInit op s (raise .errLength s)

/-! ### Reset -/

/-- Reset (70_reset_and_hazards.md R190): from any state to the reset state, the response dropped; what the host does
after it is the host's. -/
def assertReset (s : State) : State := { State.reset with host := s.host }

end Sys2Proof.Machine
end

