-- ==== Sys2Proof/Machine/Operands.lean ====
section
/-! DEFINITION. Operand forms: sequences and polynomials (spec 00_scope.md R11, R12), the polynomial field of a response
(30_encoding.md R64), and the operand checks of the commands (R71, 60_exceptions.md R173). -/

namespace Sys2Proof.Machine

/-- `zeros(k)` (R12). -/
def zeros (k : Nat) : List Byte := List.replicate k 0#8

/-- `coef(p, j)` (R11): the coefficient of x^j, 0x00 beyond the end. -/
def coef (p : List Byte) (j : Nat) : Byte := p.getD j 0#8

/-- The search of R11 from index `d` down: the first non-zero coefficient's index, or 0. -/
def degFrom (p : List Byte) : Nat → Nat
  | 0 => 0
  | d + 1 => if coef p (d + 1) = 0#8 then degFrom p d else d + 1

/-- The tracked degree `deg(p)` (R11): 0 for a sequence with no non-zero coefficient. -/
def deg (p : List Byte) : Nat := degFrom p (p.length - 1)

/-- `trim(p)` (R11): the normal form `p[0..deg(p)]`. A list without coefficient, which is no polynomial of R11
(`len(p)` is at least 1), counts as the zero polynomial. -/
def trim (p : List Byte) : List Byte :=
  match p with
  | [] => [0#8]
  | c :: cs => (c :: cs).take (deg (c :: cs) + 1)

/-- `lead(p)` (R11). -/
def lead (p : List Byte) : Byte := coef p (deg p)

/-- `w[i] <- w[i] xor v`. -/
def xorAt (w : List Byte) (i : Nat) (v : Byte) : List Byte := w.set i (coef w i ^^^ v)

/-- A polynomial field as the core sends it, in normal form (30_encoding.md R64). -/
def normalField (p : List Byte) : List Byte := polyField (trim p)

/-- A count, degree or position carried in a byte (20_memory.md R42). -/
def byteOf (k : Nat) : Byte := BitVec.ofNat 8 k

/-- The entry marks an erasure (10_state.md R31). -/
def flagged (b : Byte) : Bool := b != 0#8

/-- Go on where the parity count is legal, else ERR_PARAM (30_encoding.md R71). -/
def guardParity (n : Byte) (s : State) (k : Result) : Result :=
  if parityLegal n then k else raise .errParam s

/-- Go on where an operand has the length its format requires, else ERR_LENGTH (30_encoding.md R68). -/
def guardLength (w : List Byte) (len : Nat) (s : State) (k : Result) : Result :=
  if w.length = len then k else raise .errLength s

end Sys2Proof.Machine
end

