-- ==== Sys2Proof/Machine/FieldEngine.lean ====
section
/-! DEFINITION. The Field Engine: INIT, GFMUL, GFINV, GFLOG, GFEXP, GFPOW111 (spec 40_field.md). -/

namespace Sys2Proof.Machine

/-! ### The functions -/

/-- `xtime(v)` (R91): v times x, reduced. -/
def xtime (v : Byte) : Byte := if v.getLsbD 7 then (v <<< 1) ^^^ Config.fieldRed else v <<< 1

/-- One round of the double-and-reduce multiplication (R91): the accumulator r and the doubled operand t, at bit i of b. -/
def mulRound (b : Byte) (rt : Byte × Byte) (i : Nat) : Byte × Byte :=
  (if b.getLsbD i then rt.1 ^^^ rt.2 else rt.1, xtime rt.2)

/-- `mul_bitwise(a, b)` (R91). -/
def mulBitwise (a b : Byte) : Byte := ((List.range 8).foldl (mulRound b) (0x00#8, a)).1

/-- A square/multiply chain keyed to a bit pattern, most significant bit first (R93, R98). -/
def powChain (mul : Byte → Byte → Byte) (x : Byte) (bits : List Bool) : Byte :=
  bits.foldl (fun r bit => if bit then mul (mul r r) x else mul r r) 0x01#8

/-- `inv_chain(x)` (R93), bit pattern 1111 1110. -/
def invChain (mul : Byte → Byte → Byte) (x : Byte) : Byte :=
  powChain mul x [true, true, true, true, true, true, true, false]

/-- `apow(e)` (00_scope.md R10) and `exp_a(e)` (R97): 0x01 multiplied e times by `a`. -/
def expA (mul : Byte → Byte → Byte) : Nat → Byte
  | 0 => 0x01#8
  | e + 1 => mul (expA mul e) Config.primitive

/-- The search of `log_a` (R96): `count` exponents left to try, the next one `i` with y = a^i; 255 when none fits. -/
def logSearch (mul : Byte → Byte → Byte) (x : Byte) : Nat → Nat → Byte → Nat
  | 0, _, _ => 255
  | count + 1, i, y => if y = x then i else logSearch mul x count (i + 1) (mul y Config.primitive)

/-- `log_a(x)` (R96): exponents 0 to 254 are tried, 255 is the sentinel. -/
def logA (mul : Byte → Byte → Byte) (x : Byte) : Nat := logSearch mul x 255 0 0x01#8

/-- `pow111(x)` (R98), bit pattern 110 1111. -/
def pow111 (mul : Byte → Byte → Byte) (x : Byte) : Byte :=
  powChain mul x [true, true, false, true, true, true, true]

/-- What `INIT` writes to location `addr` of `MULT` (R92): `mul_bitwise` of the two bytes of the address. -/
def multEntry (addr : Nat) : Byte := mulBitwise (byteOf (addr / 256)) (byteOf (addr % 256))

/-- `MULT` after `INIT` (R92). -/
@[irreducible] def builtMult : Memory := Memory.filled multSize multEntry

/-- `INVT` after `INIT` (R92): each entry from `inv_chain` through the finished `MULT`. -/
@[irreducible] def builtInvt : Memory := Memory.filled invtSize fun x => invChain (tableMul builtMult) (byteOf x)

/-- `A111` after `INIT` (R92): `apow(111)` through the finished `MULT`. -/
@[irreducible] def builtA111 : Byte := expA (tableMul builtMult) Config.forneyExp

/-! ### The operations -/

/-- `INIT` (R92). -/
def execInit (s : State) : Result :=
  guardInit .init s <|
    respond .ok [] { s with mult := builtMult, invt := builtInvt, a111 := some builtA111, initd := true }

/-- `GFMUL a, b` (R94). -/
def execGfmul (a b : Byte) (s : State) : Result :=
  guardInit .gfmul s <| respond .ok [s.field.mul a b] s

/-- `GFINV a` (R95). -/
def execGfinv (x : Byte) (s : State) : Result :=
  guardInit .gfinv s <| respond .ok [s.field.inv x] s

/-- `GFLOG x` (R96). -/
def execGflog (x : Byte) (s : State) : Result :=
  guardInit .gflog s <| respond .ok [byteOf (logA s.field.mul x)] s

/-- `GFEXP e` (R97). -/
def execGfexp (e : Byte) (s : State) : Result :=
  guardInit .gfexp s <| respond .ok [expA s.field.mul e.toNat] s

/-- `GFPOW111 x` (R98). -/
def execGfpow111 (x : Byte) (s : State) : Result :=
  guardInit .gfpow111 s <| respond .ok [pow111 s.field.mul x] s

end Sys2Proof.Machine
end

