-- ==== Sys2Proof/Machine/PolyAlgebra.lean ====
section
/-! DEFINITION. The Polynomial Algebra unit: PEVAL, PMUL (spec 41_poly.md). -/

namespace Sys2Proof.Machine

/-- `evaluate(p, x)` (R110): Horner's rule from the highest index down. -/
def evaluate (F : Field) (p : List Byte) (x : Byte) : Byte :=
  p.foldr (fun c acc => F.mul acc x ^^^ c) 0x00#8

/-- The two loops of `multiply` (R112) over factors p and q: r[i + j] takes mul(p[i], q[j]). -/
def convolve (F : Field) (p q : List Byte) : List Byte :=
  (List.range p.length).foldl
    (fun r i => (List.range q.length).foldl (fun r j => xorAt r (i + j) (F.mul (coef p i) (coef q j))) r)
    (zeros (p.length + q.length - 1))

/-- `multiply(p, q)` (R112), in normal form. -/
def multiply (F : Field) (p q : List Byte) : List Byte := trim (convolve F (trim p) (trim q))

/-- One round of `mul_by_root` (R114), at index j of g. -/
def rootRound (F : Field) (g : List Byte) (root : Byte) (h : List Byte) (j : Nat) : List Byte :=
  xorAt (xorAt h (j + 1) (coef g j)) j (F.mul root (coef g j))

/-- `mul_by_root(g, root)` (R114): g times (x xor root). -/
def mulByRoot (F : Field) (g : List Byte) (root : Byte) : List Byte :=
  (List.range g.length).foldl (rootRound F g root) (zeros (g.length + 1))

/-- `PEVAL x, p` (R111). -/
def execPeval (x : Byte) (p : List Byte) (s : State) : Result :=
  guardInit .peval s <| respond .ok [evaluate s.field p x] s

/-- `PMUL p, q` (R113): refused where the product's degree would not fit a polynomial field. -/
def execPmul (p q : List Byte) (s : State) : Result :=
  guardInit .pmul s <|
    if deg p + deg q > 255 then raise .errParam s
    else respond .ok (normalField (multiply s.field p q)) s

end Sys2Proof.Machine
end

