-- ==== Sys2Proof/Machine/Encoder.lean ====
section
/-! DEFINITION. The Generator and Encoder: GENPOLY, ENCODE (spec 42_encoder.md). -/

namespace Sys2Proof.Machine

/-- The loop of `build_generator` (R120): `count` roots left, the running root and the running polynomial. -/
def generatorLoop (F : Field) : Nat → Byte → List Byte → List Byte
  | 0, _, g => g
  | count + 1, root, g =>
    generatorLoop F count (F.mul root Config.primitive) (mulByRoot F g (F.mul root Config.primitive))

/-- `build_generator(n)` (R120). -/
def buildGenerator (F : Field) (n : Nat) : List Byte := generatorLoop F n F.a111 [0x01#8]

/-- One step of the long division (R122), at index j: clear w[j] with the monic generator g of degree n. -/
def divideStep (F : Field) (g : List Byte) (n : Nat) (w : List Byte) (j : Nat) : List Byte :=
  let c := coef w j
  if c = 0x00#8 then w
  else (List.range (n + 1)).foldl (fun w k => xorAt w (j - n + k) (F.mul c (coef g k))) w

/-- The indices of the long division in order: 254 down to n (R122). -/
def divisionOrder (n : Nat) : List Nat := (List.range (255 - n)).map fun i => 254 - i

/-- `encode(message, n)` (R122): parity first, then the message. -/
def rsEncode (F : Field) (message : List Byte) (n : Nat) : List Byte :=
  let g := buildGenerator F n
  let w := (divisionOrder n).foldl (divideStep F g n) (zeros n ++ message)
  w.take n ++ message

/-- `GENPOLY n` (R121). -/
def execGenpoly (n : Byte) (s : State) : Result :=
  guardInit .genpoly s <| guardParity n s <|
    respond .ok (normalField (buildGenerator s.field n.toNat)) s

/-- `ENCODE n, message` (R123). -/
def execEncode (n : Byte) (message : List Byte) (s : State) : Result :=
  guardInit .encode s <| guardParity n s <| guardLength message (255 - n.toNat) s <|
    respond .ok (rsEncode s.field message n.toNat) s

end Sys2Proof.Machine
end

