-- ==== Sys2Proof/Machine/Syndrome.lean ====
section
/-! DEFINITION. The Syndrome calculator and Erasure Locator: SYND, ERALOC (spec 43_syndrome_erasure.md). -/

namespace Sys2Proof.Machine

/-- The loop of `syndromes` (R130): `count` roots left and the running root. -/
def syndromeLoop (F : Field) (word : List Byte) : Nat → Byte → List Byte
  | 0, _ => []
  | count + 1, root =>
    evaluate F word (F.mul root Config.primitive) :: syndromeLoop F word count (F.mul root Config.primitive)

/-- `syndromes(word, n)` (R130). -/
def syndromes (F : Field) (word : List Byte) (n : Nat) : List Byte := syndromeLoop F word n F.a111

/-- One round of `erasure_locator` (R132), at position i of the mask. -/
def erasureRound (F : Field) (mask : List Byte) (gc : List Byte × Nat) (i : Nat) : List Byte × Nat :=
  if flagged (coef mask i) then (mulByRoot F gc.1 (expA F.mul (255 - i)), gc.2 + 1) else gc

/-- `erasure_locator(mask)` (R132): the locator and the number of erasures. -/
def erasureLocator (F : Field) (mask : List Byte) : List Byte × Nat :=
  (List.range 255).foldl (erasureRound F mask) ([0x01#8], 0)

/-- `SYND n, word` (R131). -/
def execSynd (n : Byte) (word : List Byte) (s : State) : Result :=
  guardInit .synd s <| guardParity n s <| guardLength word 255 s <|
    respond .ok (syndromes s.field word n.toNat) s

/-- `ERALOC mask` (R133). -/
def execEraloc (mask : List Byte) (s : State) : Result :=
  guardInit .eraloc s <| guardLength mask 255 s <|
    respond .ok (byteOf (erasureLocator s.field mask).2 :: normalField (erasureLocator s.field mask).1) s

end Sys2Proof.Machine
end

