-- ==== Sys2Proof/Machine/Euclid.lean ====
section
/-! DEFINITION. The Euclidean Decoder Core: EUCLID (spec 44_euclid.md). -/

namespace Sys2Proof.Machine

/-- The stopping bound (R140), used where s ≤ n and 1 ≤ n, so that no subtraction goes below 0. -/
def euclidBound (n s : Nat) : Nat := s + (n + 1 - s) / 2 - 1

/-- A remainder and its cofactor (R141). -/
structure EuclidPair where
  r : List Byte
  t : List Byte
  deriving DecidableEq, Repr

/-- `u xor (c · x^k · v)` (R141). -/
def subtractScaled (F : Field) (u : List Byte) (c : Byte) (k : Nat) (v : List Byte) : List Byte :=
  (List.range (max u.length (v.length + k))).map fun j =>
    coef u j ^^^ F.mul c (if j < k then 0x00#8 else coef v (j - k))

/-- The single scaled subtraction (R141): the pair being reduced, by the other pair. -/
def reducePair (F : Field) (p o : EuclidPair) : EuclidPair :=
  let k := deg p.r - deg o.r
  let c := F.mul (lead p.r) (F.inv (lead o.r))
  { r := trim (subtractScaled F p.r c k o.r), t := trim (subtractScaled F p.t c k o.t) }

/-- The loop of `euclid` (R141), on the selected pair and the other one, until the reduced remainder's degree is at
most `bound`. The flip exchanges the two. The fuel is more than R141(a) allows the loop (log 5). -/
def euclidLoop (F : Field) (bound : Nat) : Nat → EuclidPair → EuclidPair → EuclidPair
  | 0, sel, _ => sel
  | fuel + 1, sel, other =>
    let p := if deg sel.r < deg other.r then other else sel
    let o := if deg sel.r < deg other.r then sel else other
    let p' := reducePair F p o
    if deg p'.r ≤ bound then p' else euclidLoop F bound fuel p' o

/-- `euclid(P, n, s)` (R141): omega and the error locator. The error count is `deg` of the locator. -/
def euclid (F : Field) (product : List Byte) (n s : Nat) : EuclidPair :=
  let bound := euclidBound n s
  let pair0 : EuclidPair := { r := zeros n ++ [0x01#8], t := [0x00#8] }
  let pair1 : EuclidPair := { r := trim (product.take n), t := [0x01#8] }
  if deg pair1.r ≤ bound then pair1 else euclidLoop F bound (2 * n) pair0 pair1

/-- `EUCLID n, s, P` (R142). -/
def execEuclid (n sCount : Byte) (product : List Byte) (s : State) : Result :=
  guardInit .euclid s <| guardParity n s <|
    if sCount.toNat > n.toNat then respond .uncorrectable [] s
    else
      let e := euclid s.field product n.toNat sCount.toNat
      respond .ok (normalField e.r ++ normalField e.t) s

end Sys2Proof.Machine
end

