-- ==== Sys2Proof/Machine/Forney.lean ====
section
/-! DEFINITION. The Root Finder and Forney Evaluator: FINDERR (spec 45_forney.md). -/

namespace Sys2Proof.Machine

/-- `delta_sigma(sigma)` (R150): the odd-indexed coefficients, index 2m + 1 going to m. -/
def deltaSigma (sigma : List Byte) : List Byte :=
  if sigma.length < 2 then [0x00#8]
  else trim ((List.range ((sigma.length - 2) / 2 + 1)).map fun m => coef sigma (2 * m + 1))

/-- The position of a root (R151(a), 90_conflicts.md C1). -/
def rootPosition (F : Field) (x : Byte) : Nat := (255 - logA F.mul x) % 255

/-- The magnitude at a root (R151). -/
def rootValue (F : Field) (sigma omega : List Byte) (x : Byte) : Byte :=
  F.mul (F.mul (pow111 F.mul x) (evaluate F omega x)) (F.inv (evaluate F (deltaSigma sigma) (F.mul x x)))

/-- The roots of sigma among all 256 elements, ascending (R151). -/
def rootsOf (F : Field) (sigma : List Byte) : List Byte :=
  ((List.range 256).map byteOf).filter fun x => evaluate F sigma x == 0x00#8

/-- `find_errors(sigma, omega, declared)` (R151): the (position, value) pairs in search order, or none for
Uncorrectable. -/
def findErrors (F : Field) (sigma omega : List Byte) (declared : Nat) : Option (List (Nat × Byte)) :=
  let found := (rootsOf F sigma).map fun x => (rootPosition F x, rootValue F sigma omega x)
  if found.length ≠ declared then none else some found

/-- `FINDERR d, sigma, omega` (R152). -/
def execFinderr (d : Byte) (sigma omega : List Byte) (s : State) : Result :=
  guardInit .finderr s <|
    match findErrors s.field sigma omega d.toNat with
    | none => respond .uncorrectable [] s
    | some found => respond .ok (byteOf found.length :: found.flatMap fun pv => [byteOf pv.1, pv.2]) s

end Sys2Proof.Machine
end

