-- ==== Sys2Proof/Machine/TopDecode.lean ====
section
/-! DEFINITION. The top-level decoder: DECODE (spec 46_decode.md). -/

namespace Sys2Proof.Machine

/-- `decode(received, mask, n)` (R160): the corrected word and the correction count, or none for Uncorrectable. -/
def rsDecode (F : Field) (received mask : List Byte) (n : Nat) : Option (List Byte × Nat) :=
  let el := erasureLocator F mask
  if el.2 > n then none
  else
    let product := multiply F el.1 (syndromes F received n)
    let e := euclid F product n el.2
    let sigma := multiply F el.1 e.t
    match findErrors F sigma e.r (deg e.t + el.2) with
    | none => none
    | some found => some (found.foldl (fun out pv => xorAt out pv.1 pv.2) received, found.length)

/-- `DECODE n, received, mask` (R161). -/
def execDecode (n : Byte) (received mask : List Byte) (s : State) : Result :=
  guardInit .decode s <| guardParity n s <| guardLength received 255 s <| guardLength mask 255 s <|
    match rsDecode s.field received mask n.toNat with
    | none => respond .uncorrectable received s
    | some (out, count) => respond .ok (byteOf count :: out) s

end Sys2Proof.Machine
end

