-- ==== Sys2Proof/Machine/Dispatch.lean ====
section
/-! DEFINITION. One arm per command (spec 30_encoding.md R60). -/

namespace Sys2Proof.Machine

def exec (i : Instr) (s : State) : Host.Outcome State Fault Refusal :=
  match i with
  | .init => Sys2Proof.Machine.execInit s
  | .gfmul a b => Sys2Proof.Machine.execGfmul a b s
  | .gfinv x => Sys2Proof.Machine.execGfinv x s
  | .gflog x => Sys2Proof.Machine.execGflog x s
  | .gfexp e => Sys2Proof.Machine.execGfexp e s
  | .gfpow111 x => Sys2Proof.Machine.execGfpow111 x s
  | .peval x p => Sys2Proof.Machine.execPeval x p s
  | .pmul p q => Sys2Proof.Machine.execPmul p q s
  | .genpoly n => Sys2Proof.Machine.execGenpoly n s
  | .encode n message => Sys2Proof.Machine.execEncode n message s
  | .synd n word => Sys2Proof.Machine.execSynd n word s
  | .eraloc mask => Sys2Proof.Machine.execEraloc mask s
  | .euclid n sCount product => Sys2Proof.Machine.execEuclid n sCount product s
  | .finderr d sigma omega => Sys2Proof.Machine.execFinderr d sigma omega s
  | .decode n received mask => Sys2Proof.Machine.execDecode n received mask s

end Sys2Proof.Machine
end

