-- ==== Sys2Proof/Machine/HostPort.lean ====
section
/-! DEFINITION. What each host event does: command packets, responses taken, reset (spec 30_encoding.md R61, R62,
70_reset_and_hazards.md R190, 93_implementation_defined.md U11). -/

namespace Sys2Proof.Machine

/-- Execute a whole command packet (30_encoding.md R62, R65): decode it, then run the command. -/
def runPacket (opcode : Byte) (fields : List Byte) (s : State) : Result :=
  match Sys2Proof.decode (opcode :: fields) with
  | .ok i => exec i s
  | .error e => refusePacket e s

/-- A command packet meets the core: while a response has not been taken `cmd_ready` is 0, so that the packet waits and
nothing changes (R62, U11); else the core takes it whole and executes it. -/
def takeCommand (opcode : Byte) (fields : List Byte) (rest : List HostEvent) (s : State) : Result :=
  match s.rsp with
  | some _ => .next s
  | none => runPacket opcode fields { s with host := rest }

/-- The next host event; with none the core idles, its state unchanged (10_state.md R20, 60_exceptions.md R183). -/
def nextEvent (s : State) : Result :=
  match s.host with
  | [] => .next s
  | .command opcode fields :: rest => takeCommand opcode fields rest s
  | .takeResponse :: rest => .next (acceptResponse { s with host := rest })
  | .reset :: rest => .next (assertReset { s with host := rest })

/-- The host presents this packet next, no response being held (log 9). -/
def presentNext (packet : Byte × List Byte) (s : State) : State :=
  { s with host := .command packet.1 packet.2 :: s.host, rsp := none }

end Sys2Proof.Machine
end

