-- ==== Sys2Proof/Machine/Step.lean ====
section
/-! DEFINITION. One step of the core: one host event, which for a command is the execution of one whole command
(spec 10_state.md R20). -/

namespace Sys2Proof.Machine

/-- One step. -/
def step (s : State) : Host.Outcome State Fault Refusal := nextEvent s

/-- The state in which the next step executes the command of a table word (the host's fixed name; log 9). -/
def State.withFetchWord (s : State) (nbits w : Nat) : State := presentNext (tablePacket nbits w) s

end Sys2Proof.Machine
end

