-- ==== Sys2Proof/Safety.lean ====
section
/-! DEFINITION. What claims are stated in: the invariant of the tables (spec 10_state.md R24 to R27, R37) and the
mathematical quantities of the rules (powers, values of polynomials, convolutions), written apart from the algorithms. -/

namespace Sys2Proof.Machine

/-- The core before `INIT` (R37): `INITD` 0 and no table holds a value. -/
structure TablesAbsent (s : State) : Prop where
  initd : s.initd = false
  mult : s.mult = []
  invt : s.invt = []
  a111 : s.a111 = none

/-- The core after `INIT` (R25 to R27, 40_field.md R92): `INITD` 1, both memories in canonical form, `MULT` holding
every product, `INVT` every result of the inverse chain, `A111` the 111th power of the primitive element. -/
structure TablesBuilt (s : State) : Prop where
  initd : s.initd = true
  multWf : s.mult.wf multSize = true
  invtWf : s.invt.wf invtSize = true
  mult : ∀ a b : Byte, s.mult.read (multAddr a b) = some (mulBitwise a b)
  invt : ∀ x : Byte, s.invt.read x.toNat = some (invChain mulBitwise x)
  a111 : s.a111 = some (expA mulBitwise Config.forneyExp)

/-- The invariant of the machine: the tables are absent or built, as `INITD` says. -/
def TableInv (s : State) : Prop := TablesAbsent s ∨ TablesBuilt s

/-- The table contents of a core whose tables are built. -/
def builtField : Field :=
  { mul := mulBitwise, inv := invChain mulBitwise, a111 := expA mulBitwise Config.forneyExp }

/-- The state after a command that answers this response and writes nothing else (60_exceptions.md R172). -/
def State.answered (s : State) (st : Status) (payload : List Byte) : State := { s with rsp := some ⟨st, payload⟩ }

/-- With no response held, this packet is answered by this response, and nothing else changes, whatever the host does
later (30_encoding.md R62). -/
def PacketAnswers (s : State) (opcode : Byte) (fields : List Byte) (st : Status) (payload : List Byte) : Prop :=
  ∀ rest : List HostEvent,
    step { s with host := .command opcode fields :: rest, rsp := none }
      = .next { s with host := rest, rsp := some ⟨st, payload⟩ }

/-- The power x^e of a field element, e multiplications of 0x01 by x. -/
def gfPow (x : Byte) : Nat → Byte
  | 0 => 0x01#8
  | e + 1 => mulBitwise (gfPow x e) x

/-- The power a^e of the primitive element `a` = 0xAC (00_scope.md R5, R10). -/
def aPow (e : Nat) : Byte := gfPow 0xAC#8 e

/-- The field sum (xor) of `f 0`, …, `f (k - 1)`. -/
def gfSum (k : Nat) (f : Nat → Byte) : Byte := (List.range k).foldl (fun acc j => acc ^^^ f j) 0x00#8

/-- The value at x of a polynomial or word: the sum of p[j]·x^j (41_poly.md R110). -/
def polyValue (p : List Byte) (x : Byte) : Byte := gfSum p.length fun j => mulBitwise (coef p j) (gfPow x j)

/-- The coefficient of x^k of the product of two polynomials. -/
def convCoef (p q : List Byte) (k : Nat) : Byte :=
  gfSum (k + 1) fun i => mulBitwise (coef p i) (coef q (k - i))

/-- The value at x of the formal derivative: the sum of c·x^(j-1) over the odd j (45_forney.md R150). -/
def derivValue (p : List Byte) (x : Byte) : Byte :=
  gfSum p.length fun j => if j % 2 = 1 then mulBitwise (coef p j) (gfPow x (j - 1)) else 0x00#8

/-- The number of erasures of a mask (10_state.md R31). -/
def erasureCount (mask : List Byte) : Nat := mask.countP flagged

/-- The number of errors: unflagged positions at which the words differ (46_decode.md R162(b)). -/
def errorCount (codeword received mask : List Byte) : Nat :=
  (List.range 255).countP fun i => !flagged (coef mask i) && coef received i != coef codeword i

/-- The roots of a polynomial among all 256 elements, ascending as bytes (45_forney.md R151). -/
def rootList (sigma : List Byte) : List Byte :=
  ((List.range 256).map byteOf).filter fun x => polyValue sigma x == 0x00#8

/-- The (position, value) entry of a root x (R151): a^position is the inverse of a non-zero root, the position of the
root 0x00 is 0, and the value is x^111 · omega(x) divided by the derivative of sigma, 0x00 where that is 0x00. -/
def IsCorrection (sigma omega : List Byte) (x : Byte) (entry : Byte × Byte) : Prop :=
  (x = 0x00#8 → entry.1 = 0x00#8) ∧
  (x ≠ 0x00#8 → entry.1.toNat < 255 ∧ mulBitwise (aPow entry.1.toNat) x = 0x01#8) ∧
  entry.2 = mulBitwise (mulBitwise (gfPow x 111) (polyValue omega x)) (gfPow (derivValue sigma x) 254)

/-- The received word with every correction applied (46_decode.md R160(c)): each symbol xor the values of all the
(position, value) entries at its position. -/
def corrected (received : List Byte) (entries : List (Byte × Byte)) : List Byte :=
  (List.range 255).map fun i =>
    (entries.filter fun e => e.1.toNat == i).foldl (fun symbol e => symbol ^^^ e.2) (coef received i)

end Sys2Proof.Machine
end

