-- ==== Sys2Proof/Certificates/Slice0/Obligations.lean ====
section
/-! DEFINITION. The statements for the provers. Each docstring names the rule of the spec it formalises. -/

section
open Sys2Proof Sys2Proof.Machine

/-! ### Encoding -/

/-- R60, R63, R64: packets written out from the formats, one for each of the fifteen commands, decode to their
commands. -/
def Obligations.SpecPacketsDecodeToTheirCommands : Prop :=
  Sys2Proof.decode [0x00#8] = .ok .init ∧
  Sys2Proof.decode [0x01#8, 0x02#8, 0x80#8] = .ok (.gfmul 0x02#8 0x80#8) ∧
  Sys2Proof.decode [0x02#8, 0xAC#8] = .ok (.gfinv 0xAC#8) ∧
  Sys2Proof.decode [0x03#8, 0x0F#8] = .ok (.gflog 0x0F#8) ∧
  Sys2Proof.decode [0x04#8, 0x6F#8] = .ok (.gfexp 0x6F#8) ∧
  Sys2Proof.decode [0x05#8, 0xAC#8] = .ok (.gfpow111 0xAC#8) ∧
  Sys2Proof.decode [0x08#8, 0x02#8, 0x02#8, 0x01#8, 0x02#8, 0x03#8]
    = .ok (.peval 0x02#8 [0x01#8, 0x02#8, 0x03#8]) ∧
  Sys2Proof.decode [0x09#8, 0x01#8, 0x02#8, 0x03#8, 0x02#8, 0x04#8, 0x05#8, 0x06#8]
    = .ok (.pmul [0x02#8, 0x03#8] [0x04#8, 0x05#8, 0x06#8]) ∧
  Sys2Proof.decode [0x10#8, 0x04#8] = .ok (.genpoly 0x04#8) ∧
  Sys2Proof.decode [0x11#8, 0xFE#8, 0x5A#8] = .ok (.encode 0xFE#8 [0x5A#8]) ∧
  Sys2Proof.decode (0x12#8 :: 0x04#8 :: 0x26#8 :: List.replicate 254 0x07#8)
    = .ok (.synd 0x04#8 (0x26#8 :: List.replicate 254 0x07#8)) ∧
  Sys2Proof.decode (0x13#8 :: 0x80#8 :: List.replicate 254 0x01#8)
    = .ok (.eraloc (0x80#8 :: List.replicate 254 0x01#8)) ∧
  Sys2Proof.decode [0x14#8, 0x04#8, 0x00#8, 0x03#8, 0xE3#8, 0x7F#8, 0xA4#8, 0xA1#8]
    = .ok (.euclid 0x04#8 0x00#8 [0xE3#8, 0x7F#8, 0xA4#8, 0xA1#8]) ∧
  Sys2Proof.decode [0x15#8, 0x01#8, 0x01#8, 0x2E#8, 0x27#8, 0x00#8, 0xC5#8]
    = .ok (.finderr 0x01#8 [0x2E#8, 0x27#8] [0xC5#8]) ∧
  Sys2Proof.decode (0x16#8 :: 0x04#8 :: (List.replicate 255 0x11#8 ++ 0xFF#8 :: List.replicate 254 0x00#8))
    = .ok (.decode 0x04#8 (List.replicate 255 0x11#8) (0xFF#8 :: List.replicate 254 0x00#8))

/-- R63, R64: no bit of any operand is lost, for every command that a packet can carry. -/
def Obligations.DecodeOfEncodeIsTheCommand : Prop :=
  ∀ i : Instr, i.WellFormed → Sys2Proof.decode (Sys2Proof.encode i) = .ok i

/-- R63, R65, R68: a packet that is accepted is exactly the encoding of its command, with nothing missing and nothing
left over; the one exception is a packet whose parity count is illegal, of which nothing after n is read (log 3). -/
def Obligations.AcceptedPacketIsTheEncoding : Prop :=
  ∀ (bs : List Byte) (i : Instr), Sys2Proof.decode bs = .ok i →
    (i.WellFormed ∧ Sys2Proof.encode i = bs) ∨
    (∃ n rest, bs = i.opcode.code :: n :: rest ∧ parityInRange n = false ∧
      i ∈ [Instr.genpoly n, Instr.encode n [], Instr.synd n [], Instr.euclid n 0#8 [], Instr.decode n [] []])

/-- R63, R68: the packet of a command has the length its format gives, computed from its own bytes. -/
def Obligations.PacketLengthsOfTheFormats : Prop :=
  ∀ i : Instr, i.WellFormed →
    (Sys2Proof.encode i).length = packetLength i.opcode fun k => (Sys2Proof.encode i).getD k 0#8

/-- R67: a reserved opcode is refused with ERR_OPCODE whatever follows it and whatever INITD is, and changes no state;
every opcode byte that is not reserved is one of the fifteen operations. -/
def Obligations.ReservedOpcodesAreRefused : Prop :=
  ∀ b : Byte,
    let reserved := b.toNat = 0x06 ∨ b.toNat = 0x07 ∨ (0x0A ≤ b.toNat ∧ b.toNat ≤ 0x0F) ∨ 0x17 ≤ b.toNat
    (reserved → ∀ (s : State) (fields : List Byte), PacketAnswers s b fields .errOpcode []) ∧
    (¬ reserved → ∃ op : Opcode, op.code = b ∧ opcodeOfByte b = some op)

/-! ### Steps -/

/-- R20, R62: with no response held, a packet that decodes to i is taken whole and i is executed, the next events of the
host being those after it (the event list is the model's, log 1). -/
def Obligations.StepRunsTheDecodedCommand : Prop :=
  ∀ (s : State) (opcode : Byte) (fields : List Byte) (rest : List HostEvent) (i : Instr),
    s.host = .command opcode fields :: rest → s.rsp = none →
    Sys2Proof.decode (opcode :: fields) = .ok i →
    step s = exec i { s with host := rest }

/-- R65, R173 steps 1 to 4: a packet that decodes to no command is answered by the first check that fails: opcode,
then initialisation, then length. -/
def Obligations.UndecodablePacketsFollowTheCheckOrder : Prop :=
  ∀ (s : State) (b : Byte) (fields : List Byte), (∀ i, Sys2Proof.decode (b :: fields) ≠ .ok i) →
    (opcodeOfByte b = none → PacketAnswers s b fields .errOpcode []) ∧
    (∀ op, opcodeOfByte b = some op → op ≠ .init → s.initd = false → PacketAnswers s b fields .errNotInit []) ∧
    (opcodeOfByte b = some .init → s.initd = true → PacketAnswers s b fields .errAlreadyInit []) ∧
    (∀ op, opcodeOfByte b = some op → (op = .init ↔ s.initd = false) → PacketAnswers s b fields .errLength [])

/-- R62, R183, U11: with nothing presented, or with a command presented while a response is held, the state does not
change; the host's taking of the response removes it and nothing else (the event list is the model's, log 1). -/
def Obligations.IdleAndHeldCoreIsUnchanged : Prop :=
  ∀ s : State,
    (s.host = [] → step s = .next s) ∧
    (∀ opcode fields rest r, s.host = .command opcode fields :: rest → s.rsp = some r → step s = .next s) ∧
    (∀ rest, s.host = .takeResponse :: rest → step s = .next { s with rsp := none, host := rest })

/-- R190, R191: reset leads from any state to INITD 0, tables and A111 without value and no response (the event list is
the model's, log 1). -/
def Obligations.ResetEventClearsTheCore : Prop :=
  ∀ (s : State) (rest : List HostEvent), s.host = .reset :: rest →
    ∃ t, step s = .next t ∧ t.initd = false ∧ (∀ addr, t.mult.read addr = none ∧ t.invt.read addr = none) ∧
      t.a111 = none ∧ t.rsp = none ∧ t.host = rest

/-- R37: after reset INITD is 0 and no location of the tables holds a value, nor A111. -/
def Obligations.ResetStateHoldsNoTableValue : Prop :=
  State.reset.initd = false ∧ (∀ addr, State.reset.mult.read addr = none) ∧
  (∀ addr, State.reset.invt.read addr = none) ∧ State.reset.a111 = none

/-- R172: nothing stops the core: every command, in every state, and every step end in a next state. -/
def Obligations.NothingStopsTheCore : Prop :=
  (∀ (i : Instr) (s : State), ∃ t, exec i s = .next t) ∧ (∀ s : State, ∃ t, step s = .next t)

/-- R24 to R27, R37: the reset state meets the invariant of the tables. -/
def Obligations.ResetMeetsTheTableInvariant : Prop :=
  TableInv State.reset ∧ Memory.wf multSize State.reset.mult = true ∧ Memory.wf invtSize State.reset.invt = true

/-- R24 to R27, R37, R53: every step keeps the invariant of the tables: absent while INITD is 0; while it is 1, both
memories in canonical form, every location holding its product or inverse, and A111 its power. -/
def Obligations.StepKeepsTheTableInvariant : Prop :=
  ∀ s t : State, TableInv s → step s = .next t → TableInv t

/-- R44, R45, R172: a command other than INIT writes nothing but its response: every location of the tables reads as
before, and INITD, A111 and the host's events are as before. -/
def Obligations.OnlyInitWritesTheTables : Prop :=
  ∀ (i : Instr) (s t : State), i ≠ .init → exec i s = .next t →
    (∀ addr, t.mult.read addr = s.mult.read addr) ∧ (∀ addr, t.invt.read addr = s.invt.read addr) ∧
    t.initd = s.initd ∧ t.a111 = s.a111 ∧ t.host = s.host ∧ ∃ r, t = { s with rsp := some r }

/-- R53: once INITD is 1 no step but a reset changes the tables, a second INIT is refused with ERR_ALREADY_INIT and
changes nothing, and after a reset no location holds a value. -/
def Obligations.TablesLastUntilReset : Prop :=
  ∀ s t : State, s.initd = true → step s = .next t →
    ((∀ rest, s.host ≠ .reset :: rest) →
      t.initd = true ∧ t.mult = s.mult ∧ t.invt = s.invt ∧ t.a111 = s.a111) ∧
    (exec .init s = .next (s.answered .errAlreadyInit [])) ∧
    ((∃ rest, s.host = .reset :: rest) →
      t.initd = false ∧ (∀ addr, t.mult.read addr = none ∧ t.invt.read addr = none) ∧ t.a111 = none)

/-- R170, R172: a refusal, from INIT too, is the status byte alone (0xE0 to 0xE4) and writes no other state. -/
def Obligations.RefusalIsTheStatusByteAlone : Prop :=
  ∀ (i : Instr) (s t : State) (r : Response), exec i s = .next t → t.rsp = some r → r.status.isRefusal = true →
    r.bytes = [r.status.code] ∧ 0xE0 ≤ r.status.code.toNat ∧ r.status.code.toNat ≤ 0xE4 ∧
    t = s.answered r.status []

/-- R47(b), R172: once the tables are built the response depends on the command alone. -/
def Obligations.ResponsesDependOnlyOnTheCommand : Prop :=
  ∀ (i : Instr) (s₁ s₂ : State), TablesBuilt s₁ → TablesBuilt s₂ →
    ∃ st payload, exec i s₁ = .next (s₁.answered st payload) ∧ exec i s₂ = .next (s₂.answered st payload)

/-- R66: the length of every response of a well-formed command on a core with built tables, where polynomials are sent
computed from the `D` bytes of the response itself. -/
def Obligations.ResponseLengthsOfTheOperations : Prop :=
  ∀ (i : Instr) (s t : State) (r : Response), i.WellFormed → TablesBuilt s → exec i s = .next t → t.rsp = some r →
    match i with
    | .init => r.status = .errAlreadyInit ∧ r.bytes.length = 1
    | .gfmul _ _ => r.status = .ok ∧ r.bytes.length = 2
    | .gfinv _ => r.status = .ok ∧ r.bytes.length = 2
    | .gflog _ => r.status = .ok ∧ r.bytes.length = 2
    | .gfexp _ => r.status = .ok ∧ r.bytes.length = 2
    | .gfpow111 _ => r.status = .ok ∧ r.bytes.length = 2
    | .peval _ _ => r.status = .ok ∧ r.bytes.length = 2
    | .pmul p q =>
      if deg p + deg q > 255 then r.status = .errParam ∧ r.bytes.length = 1
      else r.status = .ok ∧ ∃ d, d ≤ 255 ∧ r.payload.head? = some (byteOf d) ∧ r.bytes.length = 1 + (d + 2)
    | .genpoly n => r.status = .ok ∧ r.bytes.length = n.toNat + 3
    | .encode _ _ => r.status = .ok ∧ r.bytes.length = 256
    | .synd n _ => r.status = .ok ∧ r.bytes.length = n.toNat + 1
    | .eraloc mask => r.status = .ok ∧ r.bytes.length = erasureCount mask + 4
    | .euclid n c _ =>
      if c.toNat > n.toNat then r.status = .uncorrectable ∧ r.bytes.length = 1
      else r.status = .ok ∧ ∃ dO dL, dO ≤ 253 ∧ dL ≤ 254 ∧ r.payload.head? = some (byteOf dO) ∧
        r.payload[dO + 2]? = some (byteOf dL) ∧ r.bytes.length = 1 + (dO + 2) + (dL + 2)
    | .finderr d _ _ =>
      (r.status = .ok ∧ r.bytes.length = 2 + 2 * d.toNat) ∨ (r.status = .uncorrectable ∧ r.bytes.length = 1)
    | .decode _ _ _ =>
      (r.status = .ok ∧ r.bytes.length = 257) ∨ (r.status = .uncorrectable ∧ r.bytes.length = 256)

/-! ### Initialisation and operand checks -/

/-- R92: INIT on a core that is not initialised fills MULT with every product, INVT with every 254th power, A111 with
0x0F, sets INITD and answers OK; initialised, or with extra bytes, it is refused and writes nothing. -/
def Obligations.InitBuildsTheTables : Prop :=
  ∀ s : State,
    (s.initd = false → ∃ t, exec .init s = .next t ∧ t.initd = true ∧
      (∀ a b : Byte, t.mult.read (a.toNat * 256 + b.toNat) = some (mulBitwise a b)) ∧
      (∀ x : Byte, t.invt.read x.toNat = some (gfPow x 254)) ∧
      t.a111 = some 0x0F#8 ∧ t.rsp = some ⟨.ok, []⟩ ∧ t.host = s.host ∧
      t.mult.wf multSize = true ∧ t.invt.wf invtSize = true) ∧
    (s.initd = true → ∀ fields, PacketAnswers s 0x00#8 fields .errAlreadyInit []) ∧
    (s.initd = false → ∀ fields, fields ≠ [] → PacketAnswers s 0x00#8 fields .errLength [])

/-- R24, R192: while INITD is 0 every command but INIT is refused with ERR_NOT_INIT, whatever its operands. -/
def Obligations.UninitialisedCoreRefusesAllButInit : Prop :=
  ∀ (i : Instr) (s : State), i ≠ .init → s.initd = false → exec i s = .next (s.answered .errNotInit [])

/-- R71, R173 step 3: an illegal parity count is refused with ERR_PARAM as soon as it is read, whatever follows it. -/
def Obligations.IllegalParityCountIsRefusedAtOnce : Prop :=
  ∀ (s : State) (op : Opcode) (n : Byte) (rest : List Byte),
    s.initd = true → op ∈ [Opcode.genpoly, .encode, .synd, .euclid, .decode] → (n = 0x00#8 ∨ n = 0xFF#8) →
    PacketAnswers s op.code (n :: rest) .errParam []

/-- The model's choice (log 3, DESIGN CHOICE), not a rule of the spec: exec of a command with a message, word or mask of
another length than its format's, which no packet decodes to, answers ERR_LENGTH. (What the spec says of packets of a
wrong length is in the statements about ENCODE, SYND, ERALOC and DECODE.) -/
def Obligations.WordOperandsOfWrongLengthAreRefused : Prop :=
  ∀ (s : State) (n : Byte) (w m : List Byte), s.initd = true → parityInRange n = true →
    (w.length ≠ 255 - n.toNat → exec (.encode n w) s = .next (s.answered .errLength [])) ∧
    (w.length ≠ 255 → exec (.synd n w) s = .next (s.answered .errLength [])) ∧
    (w.length ≠ 255 → exec (.eraloc w) s = .next (s.answered .errLength [])) ∧
    (w.length ≠ 255 ∨ m.length ≠ 255 → exec (.decode n w m) s = .next (s.answered .errLength []))

/-! ### Field Engine -/

/-- R99: the laws (a) to (i) of the field operations once INIT has run. The spec takes (a), (c), (d) and (e) from its
source and marks (b) and (f) to (i) as its own inference from R90. -/
def Obligations.FieldLawsHoldAfterInit : Prop :=
  ∀ s : State, TablesBuilt s → ∀ a b c : Byte,
    s.field.mul a b = s.field.mul b a ∧
    s.field.mul (s.field.mul a b) c = s.field.mul a (s.field.mul b c) ∧
    s.field.mul a (b ^^^ c) = s.field.mul a b ^^^ s.field.mul a c ∧
    (a ≠ 0x00#8 → s.field.mul a (s.field.inv a) = 0x01#8) ∧ s.field.inv (s.field.inv a) = a ∧
    s.field.mul a 0x00#8 = 0x00#8 ∧ s.field.mul a 0x01#8 = a ∧
    (s.field.mul a b = 0x00#8 → a = 0x00#8 ∨ b = 0x00#8) ∧
    (a ≠ 0x00#8 → gfPow a 255 = 0x01#8) ∧ s.field.inv a = gfPow a 254 ∧
    a ^^^ a = 0x00#8 ∧
    s.field.mul (a ^^^ b) (a ^^^ b) = s.field.mul a a ^^^ s.field.mul b b

/-- R6(b): the primitive element has order 255, so that its powers are all non-zero elements, each once. -/
def Obligations.PowersOfThePrimitiveElement : Prop :=
  aPow 255 = 0x01#8 ∧ (∀ i j, i < 255 → j < 255 → aPow i = aPow j → i = j) ∧
  (∀ x : Byte, x ≠ 0x00#8 → ∃ i, i < 255 ∧ aPow i = x)

/-- R94: GFMUL. -/
def Obligations.GfmulAnswersTheProduct : Prop :=
  ∀ s : State,
    (TablesBuilt s → ∀ a b, exec (.gfmul a b) s = .next (s.answered .ok [mulBitwise a b])) ∧
    (s.initd = false → ∀ fields, PacketAnswers s 0x01#8 fields .errNotInit []) ∧
    (s.initd = true → ∀ fields, fields.length ≠ 2 → PacketAnswers s 0x01#8 fields .errLength [])

/-- R95: GFINV. -/
def Obligations.GfinvAnswersTheInverse : Prop :=
  ∀ s : State,
    (TablesBuilt s → ∀ x, ∃ y, exec (.gfinv x) s = .next (s.answered .ok [y]) ∧ y = gfPow x 254 ∧
      (x = 0x00#8 → y = 0x00#8) ∧ (x ≠ 0x00#8 → mulBitwise x y = 0x01#8)) ∧
    (s.initd = false → ∀ fields, PacketAnswers s 0x02#8 fields .errNotInit []) ∧
    (s.initd = true → ∀ fields, fields.length ≠ 1 → PacketAnswers s 0x02#8 fields .errLength [])

/-- R96: GFLOG. -/
def Obligations.GflogAnswersTheLogarithm : Prop :=
  ∀ s : State,
    (TablesBuilt s → ∀ x, ∃ l, exec (.gflog x) s = .next (s.answered .ok [byteOf l]) ∧
      (x = 0x00#8 → l = 255) ∧
      (x ≠ 0x00#8 → l ≤ 254 ∧ aPow l = x ∧ ∀ j, j ≤ 254 → aPow j = x → j = l)) ∧
    (s.initd = false → ∀ fields, PacketAnswers s 0x03#8 fields .errNotInit []) ∧
    (s.initd = true → ∀ fields, fields.length ≠ 1 → PacketAnswers s 0x03#8 fields .errLength [])

/-- R97: GFEXP. -/
def Obligations.GfexpAnswersThePower : Prop :=
  ∀ s : State,
    (TablesBuilt s → ∀ e : Byte, exec (.gfexp e) s = .next (s.answered .ok [aPow e.toNat]) ∧ aPow e.toNat ≠ 0x00#8) ∧
    (TablesBuilt s → aPow 0 = 0x01#8 ∧ aPow 255 = 0x01#8 ∧
      (∀ e, e ≤ 254 → logA s.field.mul (aPow e) = e) ∧ logA s.field.mul (aPow 255) = 0 ∧
      (∀ x, x ≠ 0x00#8 → aPow (logA s.field.mul x) = x) ∧ aPow (logA s.field.mul 0x00#8) = 0x01#8) ∧
    (s.initd = false → ∀ fields, PacketAnswers s 0x04#8 fields .errNotInit []) ∧
    (s.initd = true → ∀ fields, fields.length ≠ 1 → PacketAnswers s 0x04#8 fields .errLength [])

/-- R98: GFPOW111. -/
def Obligations.Gfpow111AnswersThePower : Prop :=
  ∀ s : State,
    (TablesBuilt s → ∀ x, exec (.gfpow111 x) s = .next (s.answered .ok [gfPow x 111])) ∧
    (TablesBuilt s → gfPow 0x00#8 111 = 0x00#8 ∧ gfPow 0x01#8 111 = 0x01#8 ∧
      gfPow 0xAC#8 111 = 0x0F#8 ∧ s.a111 = some 0x0F#8) ∧
    (s.initd = false → ∀ fields, PacketAnswers s 0x05#8 fields .errNotInit []) ∧
    (s.initd = true → ∀ fields, fields.length ≠ 1 → PacketAnswers s 0x05#8 fields .errLength [])

/-! ### Polynomial Algebra -/

/-- R110, R111: PEVAL answers the sum of p[j]·x^j, for normal and untrimmed coefficient lists alike. -/
def Obligations.PevalAnswersThePolynomialValue : Prop :=
  ∀ s : State,
    (TablesBuilt s → ∀ x p, exec (.peval x p) s = .next (s.answered .ok [polyValue p x])) ∧
    (s.initd = false → ∀ fields, PacketAnswers s 0x08#8 fields .errNotInit []) ∧
    (s.initd = true → ∀ fields, (∀ x p, polyFits p = true → fields ≠ x :: polyField p) →
      PacketAnswers s 0x08#8 fields .errLength [])

/-- R112, R113: PMUL answers the product in normal form, of degree deg(p) + deg(q) where neither factor is zero (a
sentence that R112 marks as its own inference), and refuses a product whose degree would exceed 255. -/
def Obligations.PmulAnswersTheProduct : Prop :=
  ∀ s : State,
    (TablesBuilt s → ∀ p q, deg p + deg q ≤ 255 →
      ∃ r, exec (.pmul p q) s = .next (s.answered .ok (polyField r)) ∧ trim r = r ∧
        (∀ k, coef r k = convCoef p q k) ∧
        (lead p ≠ 0x00#8 → lead q ≠ 0x00#8 → deg r = deg p + deg q)) ∧
    (s.initd = true → ∀ p q, deg p + deg q > 255 → exec (.pmul p q) s = .next (s.answered .errParam [])) ∧
    (s.initd = false → ∀ fields, PacketAnswers s 0x09#8 fields .errNotInit []) ∧
    (s.initd = true → ∀ fields, (∀ p q, polyFits p = true → polyFits q = true → fields ≠ polyField p ++ polyField q) →
      PacketAnswers s 0x09#8 fields .errLength [])

/-- R114: the shared root-multiply step is multiplication by (x xor root). -/
def Obligations.RootMultiplyIsMultiplication : Prop :=
  ∀ (g : List Byte) (root : Byte), trim g = g → lead g ≠ 0x00#8 →
    mulByRoot builtField g root = multiply builtField g [root, 0x01#8]

/-! ### Generator and Encoder -/

/-- R120, R121: GENPOLY answers the monic polynomial of degree n whose roots are exactly a^112, …, a^(111+n). -/
def Obligations.GenpolyAnswersTheGenerator : Prop :=
  ∀ s : State,
    (TablesBuilt s → ∀ n : Byte, parityInRange n = true →
      ∃ g, exec (.genpoly n) s = .next (s.answered .ok (polyField g)) ∧ g.length = n.toNat + 1 ∧
        coef g n.toNat = 0x01#8 ∧ ∀ x, polyValue g x = 0x00#8 ↔ ∃ i, i < n.toNat ∧ x = aPow (112 + i)) ∧
    (s.initd = false → ∀ fields, PacketAnswers s 0x10#8 fields .errNotInit []) ∧
    (s.initd = true → ∀ n rest, parityInRange n = false → PacketAnswers s 0x10#8 (n :: rest) .errParam []) ∧
    (s.initd = true → ∀ fields, fields.length ≠ 1 → (∀ n rest, fields = n :: rest → parityInRange n = true) →
      PacketAnswers s 0x10#8 fields .errLength [])

/-- R122, R123: ENCODE answers 255 symbols that hold the message from index n on and vanish at every generator root. That
they vanish there R122 marks as its own inference from R120 and R130. -/
def Obligations.EncodeAnswersTheSystematicCodeword : Prop :=
  ∀ s : State,
    (TablesBuilt s → ∀ (n : Byte) message, parityInRange n = true → message.length = 255 - n.toNat →
      ∃ cw, exec (.encode n message) s = .next (s.answered .ok cw) ∧ cw.length = 255 ∧
        cw.drop n.toNat = message ∧ ∀ i, i < n.toNat → polyValue cw (aPow (112 + i)) = 0x00#8) ∧
    (s.initd = false → ∀ fields, PacketAnswers s 0x11#8 fields .errNotInit []) ∧
    (s.initd = true → ∀ n rest, parityInRange n = false → PacketAnswers s 0x11#8 (n :: rest) .errParam []) ∧
    (s.initd = true → PacketAnswers s 0x11#8 [] .errLength []) ∧
    (s.initd = true → ∀ (n : Byte) rest, parityInRange n = true → rest.length ≠ 255 - n.toNat →
      PacketAnswers s 0x11#8 (n :: rest) .errLength [])

/-! ### Syndromes and erasures -/

/-- R130, R131: SYND answers the n values of the word at a^112, …, a^(111+n), in that order. -/
def Obligations.SyndAnswersTheSyndromes : Prop :=
  ∀ s : State,
    (TablesBuilt s → ∀ (n : Byte) word, parityInRange n = true → word.length = 255 →
      exec (.synd n word) s
        = .next (s.answered .ok ((List.range n.toNat).map fun k => polyValue word (aPow (112 + k))))) ∧
    (s.initd = false → ∀ fields, PacketAnswers s 0x12#8 fields .errNotInit []) ∧
    (s.initd = true → ∀ n rest, parityInRange n = false → PacketAnswers s 0x12#8 (n :: rest) .errParam []) ∧
    (s.initd = true → PacketAnswers s 0x12#8 [] .errLength []) ∧
    (s.initd = true → ∀ n rest, parityInRange n = true → rest.length ≠ 255 →
      PacketAnswers s 0x12#8 (n :: rest) .errLength [])

/-- R132, R133: ERALOC answers the number of flagged positions and the monic polynomial of that degree whose roots are
exactly a^(255-i) for the flagged positions i. -/
def Obligations.EralocAnswersTheErasureLocator : Prop :=
  ∀ s : State,
    (TablesBuilt s → ∀ mask, mask.length = 255 →
      ∃ g, exec (.eraloc mask) s = .next (s.answered .ok (byteOf (erasureCount mask) :: polyField g)) ∧
        g.length = erasureCount mask + 1 ∧ coef g (erasureCount mask) = 0x01#8 ∧
        ∀ x, polyValue g x = 0x00#8 ↔ ∃ i, i < 255 ∧ coef mask i ≠ 0x00#8 ∧ x = aPow (255 - i)) ∧
    (s.initd = false → ∀ fields, PacketAnswers s 0x13#8 fields .errNotInit []) ∧
    (s.initd = true → ∀ fields, fields.length ≠ 255 → PacketAnswers s 0x13#8 fields .errLength [])

/-! ### Euclidean Decoder Core -/

/-- R140: the stopping bound is ceil((n + s)/2) - 1, at most n - 1. The spec marks this sentence as its own inference from
the source's formula, which the first clause repeats. -/
def Obligations.StoppingBoundValue : Prop :=
  ∀ n s, 1 ≤ n → n ≤ 254 → s ≤ n →
    euclidBound n s = s + (n + 1 - s) / 2 - 1 ∧ euclidBound n s + 1 = (n + s + 1) / 2 ∧ euclidBound n s ≤ n - 1

/-- R141, R142: for s ≤ n EUCLID answers an evaluator of degree at most the stopping bound and a non-zero locator with
s + degree at most n, both in normal form, that meet the key equation locator·P ≡ omega modulo x^n. The key equation and
the degree of the locator are R141(b) and (e), which the spec marks as its own inference. -/
def Obligations.EuclidSolvesTheKeyEquation : Prop :=
  ∀ (s : State) (n c : Byte) (product : List Byte), TablesBuilt s → parityInRange n = true → c.toNat ≤ n.toNat →
    ∃ omega loc, exec (.euclid n c product) s = .next (s.answered .ok (polyField omega ++ polyField loc)) ∧
      trim omega = omega ∧ trim loc = loc ∧ lead loc ≠ 0x00#8 ∧
      deg omega ≤ euclidBound n.toNat c.toNat ∧ c.toNat + deg loc ≤ n.toNat ∧
      ∀ j, j < n.toNat → convCoef loc product j = coef omega j

/-- R141, R142: a product whose n lowest coefficients already have degree at most the bound is returned at once, with
locator [01]. -/
def Obligations.EuclidReturnsASmallProductAtOnce : Prop :=
  ∀ (s : State) (n c : Byte) (product : List Byte), TablesBuilt s → parityInRange n = true → c.toNat ≤ n.toNat →
    deg (product.take n.toNat) ≤ euclidBound n.toNat c.toNat →
    exec (.euclid n c product) s
      = .next (s.answered .ok (polyField (trim (product.take n.toNat)) ++ [0x00#8, 0x01#8]))

/-- R142, R173: EUCLID refuses an illegal n, checks its length, and answers UNCORRECTABLE where s > n. -/
def Obligations.EuclidOutcomesWithoutAResult : Prop :=
  ∀ s : State,
    (s.initd = true → ∀ (n c : Byte) product, parityInRange n = true → c.toNat > n.toNat →
      exec (.euclid n c product) s = .next (s.answered .uncorrectable [])) ∧
    (s.initd = false → ∀ fields, PacketAnswers s 0x14#8 fields .errNotInit []) ∧
    (s.initd = true → ∀ n rest, parityInRange n = false → PacketAnswers s 0x14#8 (n :: rest) .errParam []) ∧
    (s.initd = true → PacketAnswers s 0x14#8 [] .errLength []) ∧
    (s.initd = true → ∀ n rest, parityInRange n = true → (∀ c p, polyFits p = true → rest ≠ c :: polyField p) →
      PacketAnswers s 0x14#8 (n :: rest) .errLength [])

/-! ### Root Finder and Forney Evaluator -/

/-- R150: the odd-indexed coefficients, evaluated at x², give the formal derivative at x; the spec marks the identity as
its own inference. -/
def Obligations.DeltaSigmaIsTheDerivative : Prop :=
  ∀ (sigma : List Byte) (x : Byte),
    evaluate builtField (deltaSigma sigma) (mulBitwise x x) = derivValue sigma x ∧
    ∀ m, coef (deltaSigma sigma) m = coef sigma (2 * m + 1)

/-- R150, R151, R152: FINDERR answers one (position, value) entry per root of sigma, in ascending order of the roots,
where their number is the declared degree; else UNCORRECTABLE. The entries are R151's, the value stated through the formal
derivative of sigma, which R150 says delta_sigma(x²) is and marks as its own inference. -/
def Obligations.FinderrAnswersTheRoots : Prop :=
  ∀ s : State,
    (TablesBuilt s → ∀ (d : Byte) sigma omega, (rootList sigma).length = d.toNat →
      ∃ found : List (Byte × Byte), List.Forall₂ (IsCorrection sigma omega) (rootList sigma) found ∧
        exec (.finderr d sigma omega) s = .next (s.answered .ok (d :: found.flatMap fun e => [e.1, e.2]))) ∧
    (TablesBuilt s → ∀ (d : Byte) sigma omega, (rootList sigma).length ≠ d.toNat →
      exec (.finderr d sigma omega) s = .next (s.answered .uncorrectable [])) ∧
    (s.initd = false → ∀ fields, PacketAnswers s 0x15#8 fields .errNotInit []) ∧
    (s.initd = true → ∀ fields,
      (∀ d p q, polyFits p = true → polyFits q = true → fields ≠ d :: (polyField p ++ polyField q)) →
      PacketAnswers s 0x15#8 fields .errLength [])

/-! ### Top-level decoder -/

/-- R160, R161, R162(d): DECODE answers UNCORRECTABLE with the received word unchanged, or OK with a count and the
received word with every correction applied, never a partial correction, within the radius and beyond it. esig, synd,
omega and loc are what ERALOC, SYND and EUCLID answer, EUCLID for the n lowest coefficients of esig·synd, which are all
that it reads (R141(f)); sigma is esig·loc. Where sigma has deg(loc) + s roots, s being the number of erasures, that is
the count, and each root's (position, value) entry is applied by xor; with any other number of roots, and with more than
n erasures, the answer is UNCORRECTABLE. The bound of the count by n is the spec's inference (R160(f)). -/
def Obligations.DecodeAnswersAWholeWordOrTheReceivedOne : Prop :=
  ∀ (s : State) (n : Byte) (received mask : List Byte), TablesBuilt s → parityInRange n = true →
    received.length = 255 → mask.length = 255 →
    (erasureCount mask > n.toNat →
      exec (.decode n received mask) s = .next (s.answered .uncorrectable received)) ∧
    (erasureCount mask ≤ n.toNat → ∃ esig synd omega loc sigma : List Byte,
      exec (.eraloc mask) s = .next (s.answered .ok (byteOf (erasureCount mask) :: polyField esig)) ∧
      exec (.synd n received) s = .next (s.answered .ok synd) ∧
      exec (.euclid n (byteOf (erasureCount mask)) ((List.range n.toNat).map (convCoef esig synd))) s
        = .next (s.answered .ok (polyField omega ++ polyField loc)) ∧
      trim omega = omega ∧ deg omega < n.toNat ∧ trim loc = loc ∧ lead loc ≠ 0x00#8 ∧
      deg loc + erasureCount mask ≤ n.toNat ∧
      trim sigma = sigma ∧ (∀ k, coef sigma k = convCoef esig loc k) ∧
      ((rootList sigma).length = deg loc + erasureCount mask →
        ∃ found, List.Forall₂ (IsCorrection sigma omega) (rootList sigma) found ∧
          exec (.decode n received mask) s
            = .next (s.answered .ok (byteOf (deg loc + erasureCount mask) :: corrected received found))) ∧
      ((rootList sigma).length ≠ deg loc + erasureCount mask →
        exec (.decode n received mask) s = .next (s.answered .uncorrectable received)))

/-- R160(a), R161, R173: DECODE checks initialisation, n and length, and answers UNCORRECTABLE with the received word
where more than n positions are flagged. -/
def Obligations.DecodeOutcomesWithoutCorrection : Prop :=
  ∀ s : State,
    (TablesBuilt s → ∀ (n : Byte) received mask, parityInRange n = true → received.length = 255 → mask.length = 255 →
      erasureCount mask > n.toNat →
      exec (.decode n received mask) s = .next (s.answered .uncorrectable received)) ∧
    (s.initd = false → ∀ fields, PacketAnswers s 0x16#8 fields .errNotInit []) ∧
    (s.initd = true → ∀ n rest, parityInRange n = false → PacketAnswers s 0x16#8 (n :: rest) .errParam []) ∧
    (s.initd = true → PacketAnswers s 0x16#8 [] .errLength []) ∧
    (s.initd = true → ∀ n rest, parityInRange n = true → rest.length ≠ 510 →
      PacketAnswers s 0x16#8 (n :: rest) .errLength [])

/-- R162(a): for every n and every message, decoding the encoded message with an all-zero mask returns count 0 and the
codeword. -/
def Obligations.DecodeOfEncodedWordIsClean : Prop :=
  ∀ (s : State) (n : Byte) (message : List Byte), TablesBuilt s → parityInRange n = true →
    message.length = 255 - n.toNat →
    ∃ cw, exec (.encode n message) s = .next (s.answered .ok cw) ∧
      exec (.decode n cw (zeros 255)) s = .next (s.answered .ok (0x00#8 :: cw))

/-- R162(b) with no error outside the flagged positions: whatever arrives at up to n flagged positions, the codeword is
recovered, the count being the number of flagged positions (R160(d)). -/
def Obligations.DecodeFillsErasures : Prop :=
  ∀ (s : State) (n : Byte) (message cw received mask : List Byte), TablesBuilt s → parityInRange n = true →
    message.length = 255 - n.toNat → received.length = 255 → mask.length = 255 →
    exec (.encode n message) s = .next (s.answered .ok cw) →
    errorCount cw received mask = 0 → erasureCount mask ≤ n.toNat →
    exec (.decode n received mask) s = .next (s.answered .ok (byteOf (erasureCount mask) :: cw))

/-- R162(b): for e errors and s erasures with 2e + s ≤ n, of any placement and values, the codeword is recovered, the
count being e + s. The spec gives this as the source's claim, to be tested or proved. -/
def Obligations.DecodeCorrectsWithinTheRadius : Prop :=
  ∀ (s : State) (n : Byte) (message cw received mask : List Byte), TablesBuilt s → parityInRange n = true →
    message.length = 255 - n.toNat → received.length = 255 → mask.length = 255 →
    exec (.encode n message) s = .next (s.answered .ok cw) →
    2 * errorCount cw received mask + erasureCount mask ≤ n.toNat →
    exec (.decode n received mask) s
      = .next (s.answered .ok (byteOf (errorCount cw received mask + erasureCount mask) :: cw))

end
end

