-- ==== Sys2Proof/Laws/Decode.lean ====
section
/-! SUPPORT. The laws of the decoder's readers and of the opcode table. -/

namespace Sys2Proof

/-- Reading `w.length` bytes of `w` and more gives `w` and the rest. -/
theorem takeBytes_append (w rest : List Byte) : takeBytes w.length (w ++ rest) = some (w, rest) := by
  simp [takeBytes]

/-- What a successful read says of the bytes. -/
theorem takeBytes_eq_some {k : Nat} {bs w rest : List Byte} (h : takeBytes k bs = some (w, rest)) :
    bs = w ++ rest ∧ w.length = k := by
  unfold takeBytes at h
  split at h
  · next hk =>
    cases h
    exact ⟨(List.take_append_drop k bs).symm, by simpa using hk⟩
  · cases h

/-- Reading the field of a list that fits gives the list and the rest (30_encoding.md R64). -/
theorem takePoly_polyField {p : List Byte} (h : polyFits p = true) (rest : List Byte) :
    takePoly (polyField p ++ rest) = some (p, rest) := by
  simp only [polyFits, Bool.and_eq_true, decide_eq_true_eq] at h
  have hd : (BitVec.ofNat 8 (p.length - 1)).toNat + 1 = p.length := by
    rw [BitVec.toNat_ofNat]
    omega
  simp only [polyField, List.cons_append, takePoly, hd]
  exact takeBytes_append p rest

/-- What a successful read of a polynomial field says of the bytes. -/
theorem takePoly_eq_some {bs p rest : List Byte} (h : takePoly bs = some (p, rest)) :
    bs = polyField p ++ rest ∧ polyFits p = true := by
  cases bs with
  | nil => cases h
  | cons d bs =>
    obtain ⟨rfl, hl⟩ := takeBytes_eq_some (k := d.toNat + 1) h
    have hd := d.isLt
    refine ⟨?_, by simp [polyFits, hl]; omega⟩
    have : BitVec.ofNat 8 (p.length - 1) = d := by
      rw [hl]
      simp
    simp [polyField, this]

/-- Every operation's code is found in the table (R60). -/
@[simp] theorem opcodeOfByte_code (op : Opcode) : opcodeOfByte op.code = some op := by
  cases op <;> rfl

/-- A byte found in the table is that operation's code. -/
theorem code_of_opcodeOfByte {b : Byte} {op : Opcode} (h : opcodeOfByte b = some op) : op.code = b := by
  have := List.find?_some h
  simpa using this

/-- The decoder's own range of the parity count is the one of WellFormed (R71). -/
theorem parityLegal_eq (n : Byte) : parityLegal n = parityInRange n := rfl

end Sys2Proof
end

