-- ==== Sys2Proof/Laws/Memory.lean ====
section
/-! SUPPORT. The laws of table memory: what a read gives after a write and after a fill, and that every memory
operation keeps the canonical form. -/

namespace Sys2Proof.Machine

@[simp] theorem Memory.read_nil (addr : Nat) : Memory.read [] addr = none := rfl

theorem Memory.read_write_same (m : Memory) (addr : Nat) (v : Byte) : (m.write addr v).read addr = some v := by
  induction m with
  | nil => simp [Memory.write, Memory.read]
  | cons c m ih =>
    obtain ⟨k, w⟩ := c
    unfold Memory.write
    split
    · simp [Memory.read]
    · split
      · simp [Memory.read]
      · next _ hne => simpa [Memory.read, Ne.symm hne] using ih

theorem Memory.read_write_other (m : Memory) {addr other : Nat} (v : Byte) (h : addr ≠ other) :
    (m.write addr v).read other = m.read other := by
  induction m with
  | nil => simp [Memory.write, Memory.read, h]
  | cons c m ih =>
    obtain ⟨k, w⟩ := c
    unfold Memory.write
    split
    · simp [Memory.read, h]
    · split
      · next _ he => subst he; simp [Memory.read, h]
      · simp [Memory.read, ih]

/-- A write at an address of the space keeps the canonical form. -/
theorem Memory.risesFrom_write {size lo addr : Nat} (m : Memory) (v : Byte)
    (hm : m.risesFrom size lo = true) (hlo : lo ≤ addr) (hsize : addr < size) :
    (m.write addr v).risesFrom size lo = true := by
  induction m generalizing lo with
  | nil => simp [Memory.write, Memory.risesFrom, hlo, hsize]
  | cons c m ih =>
    obtain ⟨k, w⟩ := c
    simp only [Memory.risesFrom, Bool.and_eq_true, decide_eq_true_eq] at hm
    obtain ⟨⟨hk, hks⟩, hm⟩ := hm
    unfold Memory.write
    split
    · next hlt => simp [Memory.risesFrom, hlo, hsize, hm, hks]; omega
    · split
      · next _ he => subst he; simp [Memory.risesFrom, hlo, hsize, hm]
      · simp only [Memory.risesFrom, Bool.and_eq_true, decide_eq_true_eq]
        exact ⟨⟨hk, hks⟩, ih hm (by omega)⟩

theorem Memory.wf_write {size addr : Nat} (m : Memory) (v : Byte) (hm : m.wf size = true) (h : addr < size) :
    (m.write addr v).wf size = true :=
  Memory.risesFrom_write m v hm (Nat.zero_le _) h

@[simp] theorem Memory.wf_nil (size : Nat) : Memory.wf size [] = true := rfl

/-- A run of cells holds `f` at each of its addresses. -/
theorem Memory.read_cellsFrom (f : Nat → Byte) {addr start count : Nat} (hlo : start ≤ addr)
    (hhi : addr < start + count) : (Memory.cellsFrom f start count).read addr = some (f addr) := by
  induction count generalizing start with
  | zero => omega
  | succ count ih =>
    by_cases h : start = addr
    · subst h; simp [Memory.cellsFrom, Memory.read]
    · simpa [Memory.cellsFrom, Memory.read, h] using ih (start := start + 1) (by omega) (by omega)

theorem Memory.risesFrom_cellsFrom (f : Nat → Byte) {size start count : Nat} (h : start + count ≤ size) :
    (Memory.cellsFrom f start count).risesFrom size start = true := by
  induction count generalizing start with
  | zero => rfl
  | succ count ih =>
    simp only [Memory.cellsFrom, Memory.risesFrom, Bool.and_eq_true, decide_eq_true_eq]
    exact ⟨⟨Nat.le_refl _, by omega⟩, ih (by omega)⟩

/-- A filled memory holds `f` at every location. -/
theorem Memory.read_filled {size addr : Nat} (f : Nat → Byte) (h : addr < size) :
    (Memory.filled size f).read addr = some (f addr) :=
  Memory.read_cellsFrom f (Nat.zero_le _) (by omega)

/-- A filled memory is in canonical form. -/
theorem Memory.wf_filled (size : Nat) (f : Nat → Byte) : (Memory.filled size f).wf size = true :=
  Memory.risesFrom_cellsFrom f (by omega)

/-- A write above every listed address goes to the end. -/
theorem Memory.write_past_cells (f : Nat → Byte) (start count : Nat) (v : Byte) :
    (Memory.cellsFrom f start count).write (start + count) v
      = Memory.cellsFrom f start count ++ [(start + count, v)] := by
  induction count generalizing start with
  | zero => rfl
  | succ count ih =>
    have h := ih (start + 1)
    rw [show start + 1 + count = start + (count + 1) by omega] at h
    simp [Memory.cellsFrom, Memory.write, h]

theorem Memory.cellsFrom_snoc (f : Nat → Byte) (start count : Nat) :
    Memory.cellsFrom f start (count + 1) = Memory.cellsFrom f start count ++ [(start + count, f (start + count))] := by
  induction count generalizing start with
  | zero => simp [Memory.cellsFrom]
  | succ count ih =>
    rw [Memory.cellsFrom, ih (start + 1)]
    simp [Memory.cellsFrom, show start + 1 + count = start + (count + 1) by omega]

theorem Memory.fillLoop_cells (f : Nat → Byte) (done count : Nat) :
    Memory.fillLoop f done count (Memory.cellsFrom f 0 done) = Memory.cellsFrom f 0 (done + count) := by
  induction count generalizing done with
  | zero => rfl
  | succ count ih =>
    have hw := Memory.write_past_cells f 0 done (f done)
    simp only [Nat.zero_add] at hw
    have hs := Memory.cellsFrom_snoc f 0 done
    simp only [Nat.zero_add] at hs
    rw [Memory.fillLoop, hw, ← hs, ih, show done + 1 + count = done + (count + 1) by omega]

/-- The loop of writes that `INIT` makes on an empty memory leaves the filled memory (log 6). -/
theorem Memory.fillLoop_eq_filled (size : Nat) (f : Nat → Byte) :
    Memory.fillLoop f 0 size [] = Memory.filled size f := by
  have h := Memory.fillLoop_cells f 0 size
  rw [Nat.zero_add] at h
  exact h

end Sys2Proof.Machine
end

