-- ==== Sys2Proof/Laws/State.lean ====
section
/-! SUPPORT. The small laws of State: one per field and update, and what the shared state operations leave. -/

namespace Sys2Proof.Machine

variable (s : State) (st : Status) (payload : List Byte)

/-- What `respond` answers, as one record update. -/
theorem respond_eq : respond st payload s = .next { s with rsp := some ⟨st, payload⟩ } := rfl

theorem raise_eq : raise st s = .next { s with rsp := some ⟨st, []⟩ } := rfl

@[simp] theorem setRsp_initd (r : Option Response) : ({ s with rsp := r } : State).initd = s.initd := rfl
@[simp] theorem setRsp_mult (r : Option Response) : ({ s with rsp := r } : State).mult = s.mult := rfl
@[simp] theorem setRsp_invt (r : Option Response) : ({ s with rsp := r } : State).invt = s.invt := rfl
@[simp] theorem setRsp_a111 (r : Option Response) : ({ s with rsp := r } : State).a111 = s.a111 := rfl
@[simp] theorem setRsp_rsp (r : Option Response) : ({ s with rsp := r } : State).rsp = r := rfl
@[simp] theorem setRsp_host (r : Option Response) : ({ s with rsp := r } : State).host = s.host := rfl
@[simp] theorem setRsp_field (r : Option Response) : ({ s with rsp := r } : State).field = s.field := rfl

@[simp] theorem setHost_initd (h : List HostEvent) : ({ s with host := h } : State).initd = s.initd := rfl
@[simp] theorem setHost_mult (h : List HostEvent) : ({ s with host := h } : State).mult = s.mult := rfl
@[simp] theorem setHost_invt (h : List HostEvent) : ({ s with host := h } : State).invt = s.invt := rfl
@[simp] theorem setHost_a111 (h : List HostEvent) : ({ s with host := h } : State).a111 = s.a111 := rfl
@[simp] theorem setHost_rsp (h : List HostEvent) : ({ s with host := h } : State).rsp = s.rsp := rfl
@[simp] theorem setHost_host (h : List HostEvent) : ({ s with host := h } : State).host = h := rfl
@[simp] theorem setHost_field (h : List HostEvent) : ({ s with host := h } : State).field = s.field := rfl

@[simp] theorem acceptResponse_initd : (acceptResponse s).initd = s.initd := rfl
@[simp] theorem acceptResponse_mult : (acceptResponse s).mult = s.mult := rfl
@[simp] theorem acceptResponse_invt : (acceptResponse s).invt = s.invt := rfl
@[simp] theorem acceptResponse_a111 : (acceptResponse s).a111 = s.a111 := rfl
@[simp] theorem acceptResponse_rsp : (acceptResponse s).rsp = none := rfl
@[simp] theorem acceptResponse_host : (acceptResponse s).host = s.host := rfl

@[simp] theorem assertReset_initd : (assertReset s).initd = false := rfl
@[simp] theorem assertReset_mult : (assertReset s).mult = [] := rfl
@[simp] theorem assertReset_invt : (assertReset s).invt = [] := rfl
@[simp] theorem assertReset_a111 : (assertReset s).a111 = none := rfl
@[simp] theorem assertReset_rsp : (assertReset s).rsp = none := rfl
@[simp] theorem assertReset_host : (assertReset s).host = s.host := rfl

@[simp] theorem presentNext_host (p : Byte × List Byte) :
    (presentNext p s).host = .command p.1 p.2 :: s.host := rfl
@[simp] theorem presentNext_rsp (p : Byte × List Byte) : (presentNext p s).rsp = none := rfl

@[simp] theorem answered_initd : (s.answered st payload).initd = s.initd := rfl
@[simp] theorem answered_mult : (s.answered st payload).mult = s.mult := rfl
@[simp] theorem answered_invt : (s.answered st payload).invt = s.invt := rfl
@[simp] theorem answered_a111 : (s.answered st payload).a111 = s.a111 := rfl
@[simp] theorem answered_rsp : (s.answered st payload).rsp = some ⟨st, payload⟩ := rfl
@[simp] theorem answered_host : (s.answered st payload).host = s.host := rfl
@[simp] theorem answered_field : (s.answered st payload).field = s.field := rfl

end Sys2Proof.Machine
end

