-- ==== Sys2Proof/Laws/Field.lean ====
section
/-! SUPPORT. The table contents after `INIT`, and the algebra a core with built tables computes with. -/

namespace Sys2Proof.Machine

theorem multAddr_lt (a b : Byte) : multAddr a b < multSize := by
  have ha := a.isLt
  have hb := b.isLt
  simp only [multAddr, multSize]
  omega

theorem byteOf_toNat (b : Byte) : byteOf b.toNat = b := by simp [byteOf]

theorem multEntry_multAddr (a b : Byte) : multEntry (multAddr a b) = mulBitwise a b := by
  have hb : b.toNat < 256 := b.isLt
  have h1 : multAddr a b / 256 = a.toNat := by simp only [multAddr]; omega
  have h2 : multAddr a b % 256 = b.toNat := by simp only [multAddr]; omega
  rw [multEntry, h1, h2, byteOf_toNat, byteOf_toNat]

/-- Every location of the built `MULT` holds the product of its address bytes (R92). -/
theorem read_builtMult (a b : Byte) : builtMult.read (multAddr a b) = some (mulBitwise a b) := by
  rw [builtMult, Memory.read_filled _ (multAddr_lt a b), multEntry_multAddr]

theorem tableMul_of_read {m : Memory} (h : ∀ a b : Byte, m.read (multAddr a b) = some (mulBitwise a b)) :
    tableMul m = mulBitwise := by
  funext a b
  simp [tableMul, h]

theorem tableInv_of_read {m : Memory} (h : ∀ x : Byte, m.read x.toNat = some (invChain mulBitwise x)) :
    tableInv m = invChain mulBitwise := by
  funext x
  simp [tableInv, h]

/-- Multiplying through the built table is `mul_bitwise` (R91, R92). -/
theorem tableMul_builtMult : tableMul builtMult = mulBitwise := tableMul_of_read read_builtMult

/-- Every location of the built `INVT` holds the inverse chain's result (R92, R93). -/
theorem read_builtInvt (x : Byte) : builtInvt.read x.toNat = some (invChain mulBitwise x) := by
  have hx : x.toNat < invtSize := x.isLt
  rw [builtInvt, Memory.read_filled _ hx, tableMul_builtMult, byteOf_toNat]

theorem wf_builtMult : builtMult.wf multSize = true := by
  rw [builtMult]
  exact Memory.wf_filled _ _

theorem wf_builtInvt : builtInvt.wf invtSize = true := by
  rw [builtInvt]
  exact Memory.wf_filled _ _

theorem builtA111_eq : builtA111 = expA mulBitwise Config.forneyExp := by
  rw [builtA111, tableMul_builtMult]

/-- The state that a successful `INIT` leaves has its tables built, whatever it was before. -/
theorem tablesBuilt_of_init (s : State) (r : Option Response) :
    TablesBuilt { s with mult := builtMult, invt := builtInvt, a111 := some builtA111, initd := true, rsp := r } where
  initd := rfl
  multWf := wf_builtMult
  invtWf := wf_builtInvt
  mult := read_builtMult
  invt := read_builtInvt
  a111 := congrArg some builtA111_eq

/-- A core with built tables computes with `mul_bitwise`, the inverse chain and a^111. -/
theorem field_of_tablesBuilt {s : State} (h : TablesBuilt s) : s.field = builtField := by
  simp [State.field, builtField, tableMul_of_read h.mult, tableInv_of_read h.invt, h.a111]

theorem TablesBuilt.setRsp {s : State} (h : TablesBuilt s) (r : Option Response) :
    TablesBuilt { s with rsp := r } := ⟨h.initd, h.multWf, h.invtWf, h.mult, h.invt, h.a111⟩

theorem TablesBuilt.setHost {s : State} (h : TablesBuilt s) (e : List HostEvent) :
    TablesBuilt { s with host := e } := ⟨h.initd, h.multWf, h.invtWf, h.mult, h.invt, h.a111⟩

theorem TablesAbsent.setRsp {s : State} (h : TablesAbsent s) (r : Option Response) :
    TablesAbsent { s with rsp := r } := ⟨h.initd, h.mult, h.invt, h.a111⟩

theorem TablesAbsent.setHost {s : State} (h : TablesAbsent s) (e : List HostEvent) :
    TablesAbsent { s with host := e } := ⟨h.initd, h.mult, h.invt, h.a111⟩

end Sys2Proof.Machine
end

