-- ==== Sys2Proof/Laws/Ops.lean ====
section
/-! SUPPORT. What each shared operation can answer, said once: a response and nothing else written. -/

namespace Sys2Proof.Machine

/-- The command ends with one response and writes nothing else (60_exceptions.md R172). -/
def Answers (s : State) (r : Result) : Prop := ∃ p : Response, r = .next { s with rsp := some p }

theorem answers_respond (s : State) (st : Status) (payload : List Byte) : Answers s (respond st payload s) :=
  ⟨_, rfl⟩

theorem answers_raise (s : State) (st : Status) : Answers s (raise st s) := ⟨_, rfl⟩

/-- `guardInit` raises one of the two initialisation refusals or goes on. -/
theorem guardInit_cases (op : Opcode) (s : State) (k : Result) :
    (∃ st, initStatus op s = some st ∧ st.isRefusal = true ∧ guardInit op s k = raise st s) ∨
      (initStatus op s = none ∧ guardInit op s k = k) := by
  unfold guardInit
  cases h : initStatus op s with
  | none => exact .inr ⟨rfl, rfl⟩
  | some st =>
    refine .inl ⟨st, rfl, ?_, rfl⟩
    unfold initStatus at h
    split at h <;> first | contradiction | (cases h; rfl)

theorem answers_guardInit {op : Opcode} {s : State} {k : Result} (h : Answers s k) : Answers s (guardInit op s k) := by
  obtain ⟨st, -, -, he⟩ | ⟨-, he⟩ := guardInit_cases op s k <;> rw [he]
  · exact answers_raise s st
  · exact h

theorem answers_guardParity {n : Byte} {s : State} {k : Result} (h : Answers s k) : Answers s (guardParity n s k) := by
  unfold guardParity
  split
  · exact h
  · exact answers_raise s _

theorem answers_guardLength {w : List Byte} {len : Nat} {s : State} {k : Result} (h : Answers s k) :
    Answers s (guardLength w len s k) := by
  unfold guardLength
  split
  · exact h
  · exact answers_raise s _

theorem answers_refusePacket (e : DecodeError) (s : State) : Answers s (refusePacket e s) := by
  cases e with
  | emptyPacket => exact answers_raise s _
  | reservedOpcode b => exact answers_raise s _
  | wrongLength op => exact answers_guardInit (answers_raise s _)

/-- Before `INIT` the check refuses every operation but `INIT` (10_state.md R24). -/
theorem initStatus_of_not_initd {op : Opcode} {s : State} (h : s.initd = false) (hop : op ≠ .init) :
    initStatus op s = some .errNotInit := by
  cases op <;> simp_all [initStatus]

/-- After `INIT` the check passes every operation but `INIT` (R24). -/
theorem initStatus_of_initd {op : Opcode} {s : State} (h : s.initd = true) (hop : op ≠ .init) :
    initStatus op s = none := by
  cases op <;> simp_all [initStatus]

theorem guardInit_of_initd {op : Opcode} {s : State} (k : Result) (h : s.initd = true) (hop : op ≠ .init) :
    guardInit op s k = k := by
  rw [guardInit, initStatus_of_initd h hop]

theorem guardInit_of_not_initd {op : Opcode} {s : State} (k : Result) (h : s.initd = false) (hop : op ≠ .init) :
    guardInit op s k = raise .errNotInit s := by
  rw [guardInit, initStatus_of_not_initd h hop]

theorem guardParity_of_legal {n : Byte} {s : State} (k : Result) (h : parityInRange n = true) :
    guardParity n s k = k := by
  have : parityLegal n = true := h
  simp [guardParity, this]

theorem guardLength_of_eq {w : List Byte} {len : Nat} {s : State} (k : Result) (h : w.length = len) :
    guardLength w len s k = k := by
  simp [guardLength, h]

end Sys2Proof.Machine
end

