-- ==== Sys2Proof/Laws/Exec.lean ====
section
/-! SUPPORT. What each meaning can answer (one lemma each), and what a meaning is once its checks pass. -/

namespace Sys2Proof.Machine

variable (s : State)

theorem answers_execGfmul (a b : Byte) : Answers s (execGfmul a b s) :=
  answers_guardInit (answers_respond s _ _)

theorem answers_execGfinv (x : Byte) : Answers s (execGfinv x s) := answers_guardInit (answers_respond s _ _)

theorem answers_execGflog (x : Byte) : Answers s (execGflog x s) := answers_guardInit (answers_respond s _ _)

theorem answers_execGfexp (e : Byte) : Answers s (execGfexp e s) := answers_guardInit (answers_respond s _ _)

theorem answers_execGfpow111 (x : Byte) : Answers s (execGfpow111 x s) := answers_guardInit (answers_respond s _ _)

theorem answers_execPeval (x : Byte) (p : List Byte) : Answers s (execPeval x p s) :=
  answers_guardInit (answers_respond s _ _)

theorem answers_execPmul (p q : List Byte) : Answers s (execPmul p q s) := by
  refine answers_guardInit ?_
  split
  · exact answers_raise s _
  · exact answers_respond s _ _

theorem answers_execGenpoly (n : Byte) : Answers s (execGenpoly n s) :=
  answers_guardInit (answers_guardParity (answers_respond s _ _))

theorem answers_execEncode (n : Byte) (message : List Byte) : Answers s (execEncode n message s) :=
  answers_guardInit (answers_guardParity (answers_guardLength (answers_respond s _ _)))

theorem answers_execSynd (n : Byte) (word : List Byte) : Answers s (execSynd n word s) :=
  answers_guardInit (answers_guardParity (answers_guardLength (answers_respond s _ _)))

theorem answers_execEraloc (mask : List Byte) : Answers s (execEraloc mask s) :=
  answers_guardInit (answers_guardLength (answers_respond s _ _))

theorem answers_execEuclid (n c : Byte) (product : List Byte) : Answers s (execEuclid n c product s) := by
  refine answers_guardInit (answers_guardParity ?_)
  split
  · exact answers_respond s _ _
  · exact answers_respond s _ _

theorem answers_execFinderr (d : Byte) (sigma omega : List Byte) : Answers s (execFinderr d sigma omega s) := by
  refine answers_guardInit ?_
  split
  · exact answers_respond s _ _
  · exact answers_respond s _ _

theorem answers_execDecode (n : Byte) (received mask : List Byte) : Answers s (execDecode n received mask s) := by
  refine answers_guardInit (answers_guardParity (answers_guardLength (answers_guardLength ?_)))
  split
  · exact answers_respond s _ _
  · exact answers_respond s _ _

/-- `INIT` is refused, or builds the tables and answers OK (40_field.md R92). -/
theorem execInit_cases :
    (s.initd = true ∧ execInit s = raise .errAlreadyInit s) ∨
      (s.initd = false ∧ execInit s = .next { s with
        mult := builtMult, invt := builtInvt, a111 := some builtA111, initd := true, rsp := some ⟨.ok, []⟩ }) := by
  cases h : s.initd with
  | true => exact .inl ⟨rfl, by simp [execInit, guardInit, initStatus, h]⟩
  | false => exact .inr ⟨rfl, by simp [execInit, guardInit, initStatus, h, respond]⟩

/-- A step answers a next state of one of these forms: idle or waiting, a packet executed, the response taken, reset. -/
theorem step_cases :
    (s.host = [] ∧ step s = .next s) ∨
    (∃ op fields rest r, s.host = .command op fields :: rest ∧ s.rsp = some r ∧ step s = .next s) ∨
    (∃ op fields rest, s.host = .command op fields :: rest ∧ s.rsp = none ∧
      step s = runPacket op fields { s with host := rest }) ∨
    (∃ rest, s.host = .takeResponse :: rest ∧ step s = .next { s with rsp := none, host := rest }) ∨
    (∃ rest, s.host = .reset :: rest ∧ step s = .next { State.reset with host := rest }) := by
  cases hh : s.host with
  | nil => exact .inl ⟨rfl, by simp [step, nextEvent, hh]⟩
  | cons e rest =>
    cases e with
    | command op fields =>
      cases hr : s.rsp with
      | some r => exact .inr (.inl ⟨op, fields, rest, r, rfl, rfl, by simp [step, nextEvent, hh, takeCommand, hr]⟩)
      | none =>
        exact .inr (.inr (.inl ⟨op, fields, rest, rfl, rfl, by simp [step, nextEvent, hh, takeCommand, hr]⟩))
    | takeResponse =>
      exact .inr (.inr (.inr (.inl ⟨rest, rfl, by simp [step, nextEvent, hh, acceptResponse]⟩)))
    | reset => exact .inr (.inr (.inr (.inr ⟨rest, rfl, by simp [step, nextEvent, hh, assertReset]⟩)))

/-- A packet that decodes to no command is answered as `refusePacket` answers, wherever the host's events stand. -/
theorem packetAnswers_of_decode_error {s : State} {op : Byte} {fields : List Byte} {e : DecodeError} {st : Status}
    (hd : Sys2Proof.decode (op :: fields) = .error e)
    (hr : ∀ s' : State, s'.initd = s.initd → refusePacket e s' = raise st s') : PacketAnswers s op fields st [] := by
  intro rest
  simp only [step, nextEvent, takeCommand, runPacket, hd]
  exact (hr { s with host := rest, rsp := none } rfl).trans rfl

/-- A packet that decodes to a command is answered as the command's meaning answers. -/
theorem packetAnswers_of_decode_ok {s : State} {op : Byte} {fields : List Byte} {i : Instr} {st : Status}
    {payload : List Byte} (hd : Sys2Proof.decode (op :: fields) = .ok i)
    (hr : ∀ s' : State, s'.initd = s.initd → s'.field = s.field → exec i s' = respond st payload s') :
    PacketAnswers s op fields st payload := by
  intro rest
  simp only [step, nextEvent, takeCommand, runPacket, hd]
  exact (hr { s with host := rest, rsp := none } rfl rfl).trans rfl

end Sys2Proof.Machine
end

