-- ==== Sys2Proof/Laws/PerInstr.lean ====
section
/-! SUPPORT. Statements about every command as syntax, one lemma per constructor (LAWS.json names the families). -/

/-- The packet of a command begins with its opcode byte, and that byte is read as the command's operation
(spec 30_encoding.md R60, R62). -/
def Sys2Proof.Laws.PacketStart.Statement (i : Sys2Proof.Instr) : Prop :=
  (Sys2Proof.encode i).head? = some i.opcode.code ∧ Sys2Proof.opcodeOfByte i.opcode.code = some i.opcode

theorem Sys2Proof.Laws.PacketStart.init :
    Sys2Proof.Laws.PacketStart.Statement (.init) := ⟨rfl, Sys2Proof.opcodeOfByte_code _⟩

theorem Sys2Proof.Laws.PacketStart.gfmul (a : Sys2Proof.Byte) (b : Sys2Proof.Byte) :
    Sys2Proof.Laws.PacketStart.Statement (.gfmul a b) := ⟨rfl, Sys2Proof.opcodeOfByte_code _⟩

theorem Sys2Proof.Laws.PacketStart.gfinv (x : Sys2Proof.Byte) :
    Sys2Proof.Laws.PacketStart.Statement (.gfinv x) := ⟨rfl, Sys2Proof.opcodeOfByte_code _⟩

theorem Sys2Proof.Laws.PacketStart.gflog (x : Sys2Proof.Byte) :
    Sys2Proof.Laws.PacketStart.Statement (.gflog x) := ⟨rfl, Sys2Proof.opcodeOfByte_code _⟩

theorem Sys2Proof.Laws.PacketStart.gfexp (e : Sys2Proof.Byte) :
    Sys2Proof.Laws.PacketStart.Statement (.gfexp e) := ⟨rfl, Sys2Proof.opcodeOfByte_code _⟩

theorem Sys2Proof.Laws.PacketStart.gfpow111 (x : Sys2Proof.Byte) :
    Sys2Proof.Laws.PacketStart.Statement (.gfpow111 x) := ⟨rfl, Sys2Proof.opcodeOfByte_code _⟩

theorem Sys2Proof.Laws.PacketStart.peval (x : Sys2Proof.Byte) (p : List Sys2Proof.Byte) :
    Sys2Proof.Laws.PacketStart.Statement (.peval x p) := ⟨rfl, Sys2Proof.opcodeOfByte_code _⟩

theorem Sys2Proof.Laws.PacketStart.pmul (p : List Sys2Proof.Byte) (q : List Sys2Proof.Byte) :
    Sys2Proof.Laws.PacketStart.Statement (.pmul p q) := ⟨rfl, Sys2Proof.opcodeOfByte_code _⟩

theorem Sys2Proof.Laws.PacketStart.genpoly (n : Sys2Proof.Byte) :
    Sys2Proof.Laws.PacketStart.Statement (.genpoly n) := ⟨rfl, Sys2Proof.opcodeOfByte_code _⟩

theorem Sys2Proof.Laws.PacketStart.encode (n : Sys2Proof.Byte) (message : List Sys2Proof.Byte) :
    Sys2Proof.Laws.PacketStart.Statement (.encode n message) := ⟨rfl, Sys2Proof.opcodeOfByte_code _⟩

theorem Sys2Proof.Laws.PacketStart.synd (n : Sys2Proof.Byte) (word : List Sys2Proof.Byte) :
    Sys2Proof.Laws.PacketStart.Statement (.synd n word) := ⟨rfl, Sys2Proof.opcodeOfByte_code _⟩

theorem Sys2Proof.Laws.PacketStart.eraloc (mask : List Sys2Proof.Byte) :
    Sys2Proof.Laws.PacketStart.Statement (.eraloc mask) := ⟨rfl, Sys2Proof.opcodeOfByte_code _⟩

theorem Sys2Proof.Laws.PacketStart.euclid (n : Sys2Proof.Byte) (c : Sys2Proof.Byte) (p : List Sys2Proof.Byte) :
    Sys2Proof.Laws.PacketStart.Statement (.euclid n c p) := ⟨rfl, Sys2Proof.opcodeOfByte_code _⟩

theorem Sys2Proof.Laws.PacketStart.finderr (d : Sys2Proof.Byte) (sigma : List Sys2Proof.Byte) (omega : List Sys2Proof.Byte) :
    Sys2Proof.Laws.PacketStart.Statement (.finderr d sigma omega) := ⟨rfl, Sys2Proof.opcodeOfByte_code _⟩

theorem Sys2Proof.Laws.PacketStart.decode (n : Sys2Proof.Byte) (received : List Sys2Proof.Byte) (mask : List Sys2Proof.Byte) :
    Sys2Proof.Laws.PacketStart.Statement (.decode n received mask) := ⟨rfl, Sys2Proof.opcodeOfByte_code _⟩
end

