-- ==== Sys2Proof/Laws/Poly.lean ====
section
/-! SUPPORT. The laws of sequences and polynomials: coefficients, tracked degree and normal form (spec 00_scope.md R11,
R12), and the coefficients that the loops of 41_poly.md and 44_euclid.md leave. -/

namespace Sys2Proof.Machine

/-! ### Coefficients -/

theorem coef_of_length_le {p : List Byte} {j : Nat} (h : p.length ≤ j) : coef p j = 0#8 := by
  simp [coef, List.getD, h]

@[simp] theorem coef_nil (j : Nat) : coef [] j = 0#8 := rfl

@[simp] theorem length_zeros (k : Nat) : (zeros k).length = k := List.length_replicate

@[simp] theorem coef_zeros (k j : Nat) : coef (zeros k) j = 0#8 := by
  simp only [coef, zeros, List.getD, List.getElem?_replicate]
  split <;> rfl

@[simp] theorem length_xorAt (w : List Byte) (i : Nat) (v : Byte) : (xorAt w i v).length = w.length :=
  List.length_set

theorem coef_xorAt_same {w : List Byte} {i : Nat} (v : Byte) (h : i < w.length) :
    coef (xorAt w i v) i = coef w i ^^^ v := by
  simp [coef, xorAt, List.getD, h]

theorem coef_xorAt_other {w : List Byte} {i j : Nat} (v : Byte) (h : i ≠ j) :
    coef (xorAt w i v) j = coef w j := by
  simp [coef, xorAt, List.getD, h]

/-- Lists of one length with the same coefficients are equal. -/
theorem eq_of_coef {p q : List Byte} (hl : p.length = q.length) (hc : ∀ j, coef p j = coef q j) : p = q := by
  apply List.ext_getElem hl
  intro j hp hq
  have := hc j
  simpa [coef, List.getD, hp, hq] using this

/-! ### Tracked degree and normal form -/

theorem degFrom_le (p : List Byte) (d : Nat) : degFrom p d ≤ d := by
  induction d with
  | zero => exact Nat.le_refl 0
  | succ d ih => unfold degFrom; split <;> omega

theorem coef_above_degFrom {p : List Byte} {d j : Nat} (hlo : degFrom p d < j) (hhi : j ≤ d) : coef p j = 0#8 := by
  induction d with
  | zero => omega
  | succ d ih =>
    unfold degFrom at hlo
    split at hlo
    · next hz =>
      by_cases hj : j = d + 1
      · rw [hj, hz]
      · exact ih hlo (by omega)
    · omega

theorem coef_degFrom_ne {p : List Byte} {d : Nat} (h : degFrom p d ≠ 0) : coef p (degFrom p d) ≠ 0#8 := by
  induction d with
  | zero => exact absurd rfl h
  | succ d ih =>
    unfold degFrom at h ⊢
    split
    · next hz => rw [if_pos hz] at h; exact ih h
    · next hz => exact hz

theorem deg_lt_length {p : List Byte} (h : p ≠ []) : deg p < p.length := by
  have := degFrom_le p (p.length - 1)
  have := List.length_pos_iff.mpr h
  unfold deg
  omega

/-- Above the tracked degree every coefficient is zero (R11). -/
theorem coef_of_deg_lt {p : List Byte} {j : Nat} (h : deg p < j) : coef p j = 0#8 := by
  by_cases hj : j ≤ p.length - 1
  · exact coef_above_degFrom h hj
  · exact coef_of_length_le (by omega)

/-- A tracked degree other than 0 has a non-zero coefficient (R11). -/
theorem lead_ne_zero {p : List Byte} (h : deg p ≠ 0) : lead p ≠ 0#8 := coef_degFrom_ne h

/-- The tracked degree is the highest index with a non-zero coefficient, where there is one. -/
theorem deg_eq_of_coef {p : List Byte} {d : Nat} (hd : coef p d ≠ 0#8) (hz : ∀ j, d < j → coef p j = 0#8) :
    deg p = d := by
  rcases Nat.lt_trichotomy (deg p) d with h | h | h
  · exact absurd (coef_of_deg_lt h) hd
  · exact h
  · exact absurd (hz _ h) (lead_ne_zero (by omega))

/-- The tracked degree depends on the coefficients alone. -/
theorem deg_congr {p q : List Byte} (h : ∀ j, coef p j = coef q j) : deg p = deg q := by
  by_cases hp : deg p = 0
  · by_cases hq : deg q = 0
    · rw [hp, hq]
    · exact deg_eq_of_coef ((h _).symm ▸ lead_ne_zero hq) fun j hj => (h j).trans (coef_of_deg_lt hj)
  · exact (deg_eq_of_coef (h _ ▸ lead_ne_zero hp) fun j hj => (h j).symm.trans (coef_of_deg_lt hj)).symm

theorem length_trim (p : List Byte) : (trim p).length = deg p + 1 := by
  cases p with
  | nil => rfl
  | cons c cs =>
    have := deg_lt_length (p := c :: cs) (List.cons_ne_nil _ _)
    simp only [trim, List.length_take]
    omega

theorem trim_ne_nil (p : List Byte) : trim p ≠ [] := by
  intro h
  have := length_trim p
  simp [h] at this

/-- Trimming changes no coefficient (R11). -/
@[simp] theorem coef_trim (p : List Byte) (j : Nat) : coef (trim p) j = coef p j := by
  cases p with
  | nil => cases j <;> rfl
  | cons c cs =>
    by_cases hj : j ≤ deg (c :: cs)
    · simp only [trim, coef, List.getD, List.getElem?_take, if_pos (Nat.lt_succ_of_le hj)]
    · rw [coef_of_deg_lt (p := c :: cs) (by omega), coef_of_length_le]
      rw [length_trim]
      omega

@[simp] theorem deg_trim (p : List Byte) : deg (trim p) = deg p := deg_congr (coef_trim p)

/-- A trimmed polynomial is in normal form (R11). -/
@[simp] theorem trim_trim (p : List Byte) : trim (trim p) = trim p :=
  eq_of_coef (by rw [length_trim, length_trim, deg_trim]) (coef_trim _)

/-- The normal form depends on the coefficients alone. -/
theorem trim_congr {p q : List Byte} (h : ∀ j, coef p j = coef q j) : trim p = trim q :=
  eq_of_coef (by rw [length_trim, length_trim, deg_congr h]) fun j => by rw [coef_trim, coef_trim, h]

theorem coef_take (p : List Byte) (n j : Nat) : coef (p.take n) j = if j < n then coef p j else 0#8 := by
  by_cases h : j < n <;> simp [coef, List.getD, h]

/-! ### Sums, and what the loops leave -/

@[simp] theorem gfSum_zero (f : Nat → Byte) : gfSum 0 f = 0#8 := rfl

theorem gfSum_succ (k : Nat) (f : Nat → Byte) : gfSum (k + 1) f = gfSum k f ^^^ f k := by
  simp [gfSum, List.range_succ]

theorem gfSum_congr {k : Nat} {f g : Nat → Byte} (h : ∀ j, j < k → f j = g j) : gfSum k f = gfSum k g := by
  induction k with
  | zero => rfl
  | succ k ih => rw [gfSum_succ, gfSum_succ, ih fun j hj => h j (by omega), h k (by omega)]

theorem length_mulByRoot (F : Field) (g : List Byte) (root : Byte) : (mulByRoot F g root).length = g.length + 1 := by
  have step : ∀ k, ((List.range k).foldl (rootRound F g root) (zeros (g.length + 1))).length = g.length + 1 := by
    intro k
    induction k with
    | zero => simp
    | succ k ih => simp [List.range_succ, rootRound, ih]
  exact step g.length

/-- The coefficients of `mul_by_root(g, root)`, as R114 gives them in closed form. -/
theorem coef_mulByRoot (F : Field) (g : List Byte) (root : Byte) (j : Nat) :
    coef (mulByRoot F g root) j =
      (if j = 0 then 0#8 else coef g (j - 1)) ^^^ (if j < g.length then F.mul root (coef g j) else 0#8) := by
  have step : ∀ k, k ≤ g.length →
      ((List.range k).foldl (rootRound F g root) (zeros (g.length + 1))).length = g.length + 1 ∧
      coef ((List.range k).foldl (rootRound F g root) (zeros (g.length + 1))) j =
        (if 0 < j ∧ j ≤ k then coef g (j - 1) else 0#8) ^^^ (if j < k then F.mul root (coef g j) else 0#8) := by
    intro k
    induction k with
    | zero =>
      intro _
      refine ⟨by simp, ?_⟩
      rw [if_neg (by omega), if_neg (by omega)]
      simp
    | succ k ih =>
      intro hk
      obtain ⟨hl, hc⟩ := ih (by omega)
      generalize hg : (List.range k).foldl (rootRound F g root) (zeros (g.length + 1)) = h at hl hc
      simp only [List.range_succ, List.foldl_append, List.foldl_cons, List.foldl_nil, hg, rootRound]
      refine ⟨by simpa using hl, ?_⟩
      by_cases hj1 : j = k
      · subst hj1
        rw [coef_xorAt_same _ (by rw [length_xorAt]; omega), coef_xorAt_other _ (by omega), hc,
          if_neg (by omega : ¬ j < j), if_pos (by omega : j < j + 1)]
        by_cases h0 : 0 < j
        · rw [if_pos (by omega), if_pos (by omega)]; simp
        · rw [if_neg (by omega), if_neg (by omega)]; simp
      · rw [coef_xorAt_other _ (by omega)]
        by_cases hj2 : j = k + 1
        · subst hj2
          rw [coef_xorAt_same _ (by omega), hc, if_neg (by omega), if_neg (by omega), if_pos (by omega),
            if_neg (by omega)]
          simp
        · rw [coef_xorAt_other _ (by omega), hc]
          congr 1
          · by_cases h : 0 < j ∧ j ≤ k
            · rw [if_pos h, if_pos (by omega)]
            · rw [if_neg h, if_neg (by omega)]
          · by_cases h : j < k
            · rw [if_pos h, if_pos (by omega)]
            · rw [if_neg h, if_neg (by omega)]
  have h := (step g.length (Nat.le_refl _)).2
  rw [mulByRoot, h]
  by_cases h0 : j = 0
  · rw [if_neg (by omega), if_pos h0]
  · rw [if_neg h0]
    by_cases hj : 0 < j ∧ j ≤ g.length
    · rw [if_pos hj]
    · rw [if_neg hj, coef_of_length_le (p := g) (j := j - 1) (by omega)]

/-- `mul_bitwise` of 0x00 is 0x00 (40_field.md R99(e)). -/
theorem mulBitwise_zero_left (b : Byte) : mulBitwise 0x00#8 b = 0x00#8 := by
  have h : ∀ l : List Nat, l.foldl (mulRound b) (0x00#8, 0x00#8) = (0x00#8, 0x00#8) := by
    intro l
    induction l with
    | nil => rfl
    | cons i l ih =>
      have hr : mulRound b (0x00#8, 0x00#8) i = (0x00#8, 0x00#8) := by
        cases hb : b.getLsbD i <;> simp [mulRound, hb, xtime]
      rw [List.foldl_cons, hr, ih]
  rw [mulBitwise, h]

/-- Zero coefficients at the top do not change the value (41_poly.md R110). -/
theorem evaluate_append_zeros (p : List Byte) (k : Nat) (x : Byte) :
    evaluate builtField (p ++ zeros k) x = evaluate builtField p x := by
  have h : ∀ k, (zeros k).foldr (fun c acc => builtField.mul acc x ^^^ c) 0x00#8 = 0x00#8 := by
    intro k
    induction k with
    | zero => rfl
    | succ k ih =>
      rw [zeros, List.replicate_succ, List.foldr_cons]
      rw [zeros] at ih
      rw [ih]
      show mulBitwise 0x00#8 x ^^^ 0x00#8 = 0x00#8
      rw [mulBitwise_zero_left]
      rfl
  rw [evaluate, List.foldr_append, h]
  rfl

theorem length_subtractScaled (F : Field) (u : List Byte) (c : Byte) (k : Nat) (v : List Byte) :
    (subtractScaled F u c k v).length = max u.length (v.length + k) := by
  simp [subtractScaled]

/-- The coefficients of `u xor (c · x^k · v)` within its length, as R141 gives them. -/
theorem coef_subtractScaled (F : Field) (u : List Byte) (c : Byte) (k : Nat) (v : List Byte) {j : Nat}
    (h : j < max u.length (v.length + k)) :
    coef (subtractScaled F u c k v) j = coef u j ^^^ F.mul c (if j < k then 0#8 else coef v (j - k)) := by
  rw [coef, subtractScaled, List.getD, List.getElem?_map, List.getElem?_range h]
  rfl

/-- The inner loop of `multiply` (R112): the row of p[i]. -/
theorem coef_convolveRow (F : Field) (c : Byte) (q : List Byte) (i : Nat) {r : List Byte} {m : Nat}
    (hm : i + m ≤ r.length) (k : Nat) :
    ((List.range m).foldl (fun r j => xorAt r (i + j) (F.mul c (coef q j))) r).length = r.length ∧
    coef ((List.range m).foldl (fun r j => xorAt r (i + j) (F.mul c (coef q j))) r) k =
      coef r k ^^^ (if i ≤ k ∧ k < i + m then F.mul c (coef q (k - i)) else 0#8) := by
  induction m with
  | zero => rw [if_neg (by omega)]; simp
  | succ m ih =>
    obtain ⟨hl, hc⟩ := ih (by omega)
    generalize hg : (List.range m).foldl (fun r j => xorAt r (i + j) (F.mul c (coef q j))) r = w at hl hc
    simp only [List.range_succ, List.foldl_append, List.foldl_cons, List.foldl_nil, hg]
    refine ⟨by simpa using hl, ?_⟩
    by_cases hk : i + m = k
    · subst hk
      rw [coef_xorAt_same _ (by omega), hc, if_neg (by omega), if_pos (by omega)]
      simp
    · rw [coef_xorAt_other _ hk, hc]
      congr 1
      by_cases h : i ≤ k ∧ k < i + m
      · rw [if_pos h, if_pos (by omega)]
      · rw [if_neg h, if_neg (by omega)]

/-- The coefficients of the convolution of `multiply` (R112). -/
theorem coef_convolve (F : Field) {p q : List Byte} (hq : q ≠ []) (k : Nat) :
    (convolve F p q).length = p.length + q.length - 1 ∧
    coef (convolve F p q) k =
      gfSum p.length fun i => if i ≤ k ∧ k < i + q.length then F.mul (coef p i) (coef q (k - i)) else 0#8 := by
  have hql := List.length_pos_iff.mpr hq
  have step : ∀ m, m ≤ p.length →
      ((List.range m).foldl (fun r i => (List.range q.length).foldl
        (fun r j => xorAt r (i + j) (F.mul (coef p i) (coef q j))) r) (zeros (p.length + q.length - 1))).length
        = p.length + q.length - 1 ∧
      coef ((List.range m).foldl (fun r i => (List.range q.length).foldl
        (fun r j => xorAt r (i + j) (F.mul (coef p i) (coef q j))) r) (zeros (p.length + q.length - 1))) k =
        gfSum m fun i => if i ≤ k ∧ k < i + q.length then F.mul (coef p i) (coef q (k - i)) else 0#8 := by
    intro m
    induction m with
    | zero => intro _; simp
    | succ m ih =>
      intro hm
      obtain ⟨hl, hc⟩ := ih (by omega)
      generalize hg : (List.range m).foldl (fun r i => (List.range q.length).foldl
        (fun r j => xorAt r (i + j) (F.mul (coef p i) (coef q j))) r) (zeros (p.length + q.length - 1)) = w at hl hc
      simp only [List.range_succ, List.foldl_append, List.foldl_cons, List.foldl_nil, hg]
      rw [gfSum_succ, ← hc]
      have row := coef_convolveRow F (coef p m) q m (r := w) (m := q.length) (by omega) k
      exact ⟨row.1.trans hl, row.2⟩
  exact step p.length (Nat.le_refl _)

/-- EUCLID reads the n lowest coefficients of its product and nothing else (44_euclid.md R141(f)). -/
theorem euclid_congr (F : Field) {p q : List Byte} {n : Nat} (h : ∀ j, j < n → coef p j = coef q j) (s : Nat) :
    euclid F p n s = euclid F q n s := by
  have ht : trim (p.take n) = trim (q.take n) := trim_congr fun j => by
    rw [coef_take, coef_take]
    split
    · next hj => exact h j hj
    · rfl
  simp only [euclid, ht]

/-! ### Corrections applied to a word -/

@[simp] theorem length_corrected (received : List Byte) (entries : List (Byte × Byte)) :
    (corrected received entries).length = 255 := by simp [corrected]

theorem coef_corrected (received : List Byte) (entries : List (Byte × Byte)) {i : Nat} (h : i < 255) :
    coef (corrected received entries) i =
      (entries.filter fun e => e.1.toNat == i).foldl (fun symbol e => symbol ^^^ e.2) (coef received i) := by
  rw [coef, corrected, List.getD, List.getElem?_map, List.getElem?_range h]
  rfl

/-- The entries applied one after another (46_decode.md R160) leave the word with every correction applied. -/
theorem foldl_xorAt_eq_corrected (entries : List (Byte × Byte)) {received : List Byte} (h : received.length = 255) :
    entries.foldl (fun out e => xorAt out e.1.toNat e.2) received = corrected received entries := by
  induction entries generalizing received with
  | nil =>
    refine eq_of_coef (by simpa using h) fun j => ?_
    by_cases hj : j < 255
    · rw [coef_corrected _ _ hj]; rfl
    · rw [List.foldl_nil, coef_of_length_le (by omega), coef_of_length_le (by rw [length_corrected]; omega)]
  | cons e rest ih =>
    rw [List.foldl_cons, ih (by simpa using h)]
    refine eq_of_coef (by simp) fun j => ?_
    by_cases hj : j < 255
    · rw [coef_corrected _ _ hj, coef_corrected _ _ hj, List.filter_cons]
      by_cases he : e.1.toNat = j
      · rw [if_pos (by simpa using he), List.foldl_cons, ← he, coef_xorAt_same _ (by omega)]
      · rw [if_neg (by simpa using he), coef_xorAt_other _ he]
    · rw [coef_of_length_le (by rw [length_corrected]; omega), coef_of_length_le (by rw [length_corrected]; omega)]

/-- The stopping bound, for a legal parity count and an erasure count up to it, is ceil((n + s)/2) - 1 (R140). -/
theorem euclidBound_lt {n s : Nat} (hn : 1 ≤ n) (hs : s ≤ n) : euclidBound n s + 1 ≤ n := by
  unfold euclidBound
  omega

end Sys2Proof.Machine
end

