-- ==== Sys2Proof/Tests/Slice0.lean ====
section
/-! SUPPORT. Tests: expected results are the spec's own (95_test_vectors.md, and the packets written out from
30_encoding.md R60 to R64); and for every statement with hypotheses a witness that meets them. -/

/- One theorem after another: each of the kernel evaluations below would else hold a thread of its own. -/
set_option Elab.async false

namespace Sys2Proof.Tests

open Sys2Proof Sys2Proof.Machine

/-- R5: FIELD_RED is FIELD_POLY without its x⁸ term, FORNEY_EXP is FCR - 1, and a^111 is 0x0F. -/
theorem test_config : Config.fieldRed = Config.fieldPoly.setWidth 8 ∧ Config.forneyExp = Config.fcr - 1 ∧
    expA mulBitwise Config.forneyExp = 0x0F#8 := by decide +kernel

/-! ### WellFormed refuses an ill-formed command, one for each check -/

theorem test_wf_genpoly_zero_parity : (Instr.genpoly 0x00#8).wellFormed = false := by decide
theorem test_wf_genpoly_parity_255 : (Instr.genpoly 0xFF#8).wellFormed = false := by decide
theorem test_wf_peval_no_coefficient : (Instr.peval 0x01#8 []).wellFormed = false := by decide
theorem test_wf_pmul_second_factor_too_long :
    (Instr.pmul [0x01#8] (List.replicate 257 0x01#8)).wellFormed = false := by decide +kernel
theorem test_wf_encode_short_message : (Instr.encode 0xFE#8 []).wellFormed = false := by decide
theorem test_wf_synd_short_word : (Instr.synd 0x04#8 (zeros 254)).wellFormed = false := by decide +kernel
theorem test_wf_eraloc_long_mask : (Instr.eraloc (zeros 256)).wellFormed = false := by decide +kernel
theorem test_wf_euclid_zero_parity : (Instr.euclid 0x00#8 0x00#8 [0x00#8]).wellFormed = false := by decide
theorem test_wf_finderr_no_omega : (Instr.finderr 0x01#8 [0x01#8] []).wellFormed = false := by decide
theorem test_wf_decode_short_mask :
    (Instr.decode 0x04#8 (zeros 255) (zeros 254)).wellFormed = false := by decide +kernel

/-! ### Decoding, every constructor: packets written out from R60, R63, R64 -/

/-- The command a packet decodes to, if any. -/
def decoded (bs : List Byte) : Option Instr := (Sys2Proof.decode bs).toOption

theorem test_decode_init : decoded [0x00#8] = some .init := by decide
theorem test_decode_gfmul : decoded [0x01#8, 0x02#8, 0x80#8] = some (.gfmul 0x02#8 0x80#8) := by decide
theorem test_decode_gfinv : decoded [0x02#8, 0xAC#8] = some (.gfinv 0xAC#8) := by decide
theorem test_decode_gflog : decoded [0x03#8, 0x0F#8] = some (.gflog 0x0F#8) := by decide
theorem test_decode_gfexp : decoded [0x04#8, 0x6F#8] = some (.gfexp 0x6F#8) := by decide
theorem test_decode_gfpow111 : decoded [0x05#8, 0xAC#8] = some (.gfpow111 0xAC#8) := by decide
theorem test_decode_peval : decoded [0x08#8, 0x02#8, 0x02#8, 0x01#8, 0x02#8, 0x03#8]
    = some (.peval 0x02#8 [0x01#8, 0x02#8, 0x03#8]) := by decide
theorem test_decode_pmul : decoded [0x09#8, 0x01#8, 0x02#8, 0x03#8, 0x02#8, 0x04#8, 0x05#8, 0x06#8]
    = some (.pmul [0x02#8, 0x03#8] [0x04#8, 0x05#8, 0x06#8]) := by decide
theorem test_decode_genpoly : decoded [0x10#8, 0x04#8] = some (.genpoly 0x04#8) := by decide
theorem test_decode_encode : decoded [0x11#8, 0xFE#8, 0x5A#8] = some (.encode 0xFE#8 [0x5A#8]) := by decide
theorem test_decode_synd : decoded (0x12#8 :: 0x04#8 :: 0x26#8 :: List.replicate 254 0x07#8)
    = some (.synd 0x04#8 (0x26#8 :: List.replicate 254 0x07#8)) := by decide +kernel
theorem test_decode_eraloc : decoded (0x13#8 :: 0x80#8 :: List.replicate 254 0x01#8)
    = some (.eraloc (0x80#8 :: List.replicate 254 0x01#8)) := by decide +kernel
theorem test_decode_euclid : decoded [0x14#8, 0x04#8, 0x01#8, 0x03#8, 0xE3#8, 0x7F#8, 0xA4#8, 0xA1#8]
    = some (.euclid 0x04#8 0x01#8 [0xE3#8, 0x7F#8, 0xA4#8, 0xA1#8]) := by decide
theorem test_decode_finderr : decoded [0x15#8, 0x01#8, 0x01#8, 0x2E#8, 0x27#8, 0x00#8, 0xC5#8]
    = some (.finderr 0x01#8 [0x2E#8, 0x27#8] [0xC5#8]) := by decide
theorem test_decode_decode :
    decoded (0x16#8 :: 0x04#8 :: (List.replicate 255 0x11#8 ++ 0xFF#8 :: List.replicate 254 0x00#8))
    = some (.decode 0x04#8 (List.replicate 255 0x11#8) (0xFF#8 :: List.replicate 254 0x00#8)) := by decide +kernel

/-- R67: the reserved opcodes around the used ones. -/
theorem test_decode_reserved : [0x06#8, 0x07#8, 0x0A#8, 0x0F#8, 0x17#8, 0xFF#8].map opcodeOfByte
    = [none, none, none, none, none, none] := by decide

/-- The host's table words (opcode byte alone) decode to their rows, operand bytes zero. -/
theorem test_decodeTableWord :
    [0x00, 0x01, 0x02, 0x03, 0x04, 0x05, 0x08, 0x09, 0x10, 0x14, 0x15].map (decodeTableWord 8)
    = [some .init, some (.gfmul 0#8 0#8), some (.gfinv 0#8), some (.gflog 0#8), some (.gfexp 0#8),
       some (.gfpow111 0#8), some (.peval 0#8 [0#8]), some (.pmul [0#8] [0#8]), some (.genpoly 0#8),
       some (.euclid 0#8 0#8 []), some (.finderr 0#8 [0#8] [0#8])] := by decide +kernel
theorem test_decodeTableWord_words :
    [0x11, 0x12, 0x13, 0x16].map (decodeTableWord 8)
    = [some (.encode 0#8 []), some (.synd 0#8 []), some (.eraloc (zeros 255)), some (.decode 0#8 [] [])] := by
  decide +kernel
theorem test_decodeTableWord_with_operands : decodeTableWord 24 0x800201 = some (.gfmul 0x02#8 0x80#8) := by
  decide +kernel

/-! ### Refusals and their order: 60_exceptions.md R173, worked cases, and 95_test_vectors.md V-PKT -/

/-- The bytes of the response a result offers. -/
def answerOf : Result → Option (List Byte)
  | .next t => t.rsp.map Response.bytes
  | .fault _ => none
  | .refused _ => none

/-- A core that `INIT` has initialised. -/
def readyState : State :=
  { State.reset with mult := builtMult, invt := builtInvt, a111 := some builtA111, initd := true, rsp := none }

theorem ready_built : TablesBuilt readyState := tablesBuilt_of_init State.reset none

theorem ready_field : readyState.field = builtField := field_of_tablesBuilt ready_built

/-- The response to a packet, the core being in the given state. -/
def packetAnswer (s : State) (bs : List Byte) : Option (List Byte) :=
  match bs with
  | [] => none
  | b :: fields => answerOf (step { s with host := [.command b fields] })

theorem test_refusals_before_init :
    [[0x07#8], [0x01#8, 0x02#8, 0x80#8], [0x00#8, 0x00#8], [0x16#8]].map (packetAnswer State.reset)
    = [some [0xE2#8], some [0xE0#8], some [0xE4#8], some [0xE0#8]] := by decide +kernel
theorem test_refusals_after_init :
    [[0x07#8], [0x00#8], [0x00#8, 0x01#8], [0x01#8, 0x02#8], [0x10#8, 0x00#8, 0x00#8], [0x10#8, 0x04#8, 0x00#8],
      [0x11#8], [0x11#8, 0xFF#8], [0x11#8, 0xFE#8]].map (packetAnswer readyState)
    = [some [0xE2#8], some [0xE1#8], some [0xE1#8], some [0xE4#8], some [0xE3#8], some [0xE4#8],
      some [0xE4#8], some [0xE3#8], some [0xE4#8]] := by decide +kernel
theorem test_refusals_of_euclid_and_decode :
    [[0x14#8, 0x00#8, 0x00#8, 0x00#8, 0x00#8], [0x14#8, 0x04#8, 0x05#8, 0x00#8, 0x00#8], [0x14#8, 0x04#8, 0x05#8],
      [0x16#8, 0xFF#8], [0x16#8, 0x04#8]].map (packetAnswer readyState)
    = [some [0xE3#8], some [0x01#8], some [0xE4#8], some [0xE3#8], some [0xE4#8]] := by decide +kernel

/-! ### Steps and the host's events -/

theorem test_step_init : answerOf (step (State.reset.withFetchWord 8 0x00)) = some [0x00#8] := by decide +kernel
theorem test_step_idle : step State.reset = .next State.reset := rfl
theorem test_step_held (r : Response) :
    step { State.reset with host := [.command 0x00#8 []], rsp := some r }
      = .next { State.reset with host := [.command 0x00#8 []], rsp := some r } := rfl
theorem test_step_reset : step { readyState with host := [.reset] } = .next State.reset := rfl

/-! ### Each command on an initialised core: 95_test_vectors.md -/

theorem test_gfmul : answerOf (exec (.gfmul 0x53#8 0xCA#8) readyState) = some [0x00#8, 0xA8#8] := by
  rw [exec, execGfmul, guardInit_of_initd _ rfl (by decide), ready_field]
  decide
theorem test_gfmul_through_the_table : builtMult.read 0x0280 = some 0x87#8 := by
  rw [show (0x0280 : Nat) = multAddr 0x02#8 0x80#8 from rfl, read_builtMult]
  decide
theorem test_gfinv : answerOf (exec (.gfinv 0x02#8) readyState) = some [0x00#8, 0xC3#8] := by
  rw [exec, execGfinv, guardInit_of_initd _ rfl (by decide), ready_field]
  decide +kernel
theorem test_gfinv_zero : answerOf (exec (.gfinv 0x00#8) readyState) = some [0x00#8, 0x00#8] := by
  rw [exec, execGfinv, guardInit_of_initd _ rfl (by decide), ready_field]
  decide +kernel
theorem test_gflog : answerOf (exec (.gflog 0x0F#8) readyState) = some [0x00#8, 0x6F#8] := by
  rw [exec, execGflog, guardInit_of_initd _ rfl (by decide), ready_field]
  decide +kernel
theorem test_gflog_zero : answerOf (exec (.gflog 0x00#8) readyState) = some [0x00#8, 0xFF#8] := by
  rw [exec, execGflog, guardInit_of_initd _ rfl (by decide), ready_field]
  decide +kernel
theorem test_gfexp : answerOf (exec (.gfexp 0x70#8) readyState) = some [0x00#8, 0x38#8] := by
  rw [exec, execGfexp, guardInit_of_initd _ rfl (by decide), ready_field]
  decide +kernel
theorem test_gfexp_255 : answerOf (exec (.gfexp 0xFF#8) readyState) = some [0x00#8, 0x01#8] := by
  rw [exec, execGfexp, guardInit_of_initd _ rfl (by decide), ready_field]
  decide +kernel
theorem test_gfpow111 : answerOf (exec (.gfpow111 0x02#8) readyState) = some [0x00#8, 0xE0#8] := by
  rw [exec, execGfpow111, guardInit_of_initd _ rfl (by decide), ready_field]
  decide +kernel
theorem test_peval : answerOf (exec (.peval 0xAC#8 [0x01#8, 0x02#8, 0x03#8]) readyState) = some [0x00#8, 0x98#8] := by
  rw [exec, execPeval, guardInit_of_initd _ rfl (by decide), ready_field]
  decide +kernel
theorem test_pmul : answerOf (exec (.pmul [0x02#8, 0x03#8, 0x00#8] [0x04#8, 0x05#8, 0x06#8]) readyState)
    = some [0x00#8, 0x03#8, 0x08#8, 0x06#8, 0x03#8, 0x0A#8] := by
  rw [exec, execPmul, guardInit_of_initd _ rfl (by decide), ready_field]
  decide +kernel
theorem test_pmul_zero_factor : answerOf (exec (.pmul [0x02#8, 0x03#8, 0x00#8] [0x00#8]) readyState)
    = some [0x00#8, 0x00#8, 0x00#8] := by
  rw [exec, execPmul, guardInit_of_initd _ rfl (by decide), ready_field]
  decide +kernel
theorem test_genpoly : answerOf (exec (.genpoly 0x04#8) readyState)
    = some [0x00#8, 0x04#8, 0x9E#8, 0x6C#8, 0x08#8, 0x22#8, 0x01#8] := by
  rw [exec, execGenpoly, guardInit_of_initd _ rfl (by decide), ready_field]
  decide +kernel
theorem test_encode_parity :
    (answerOf (exec (.encode 0x02#8 (0x01#8 :: 0x02#8 :: zeros 251)) readyState)).map (List.take 6)
    = some [0x00#8, 0x4A#8, 0x4A#8, 0x01#8, 0x02#8, 0x00#8] := by
  rw [exec, execEncode, guardInit_of_initd _ rfl (by decide), ready_field]
  decide +kernel
theorem test_synd : answerOf (exec (.synd 0x04#8 ((zeros 10 ++ [0x55#8]) ++ zeros 244)) readyState)
    = some [0x00#8, 0xE3#8, 0x7F#8, 0xA4#8, 0xA1#8] := by
  rw [exec, execSynd, guardInit_of_initd _ rfl (by decide), ready_field, guardParity_of_legal _ (by decide),
    guardLength_of_eq _ (by decide +kernel), syndromes, show (0x04#8).toNat = 4 from rfl]
  simp only [syndromeLoop, evaluate_append_zeros]
  decide +kernel
theorem test_eraloc : answerOf (exec (.eraloc (zeros 5 ++ 0x01#8 :: zeros 3 ++ 0x80#8 :: zeros 245)) readyState)
    = some [0x00#8, 0x02#8, 0x02#8, 0xB7#8, 0x12#8, 0x01#8] := by
  rw [exec, execEraloc, guardInit_of_initd _ rfl (by decide), ready_field]
  decide +kernel
theorem test_euclid_two_errors :
    answerOf (exec (.euclid 0x04#8 0x00#8 [0xB3#8, 0xD2#8, 0x77#8, 0x25#8]) readyState)
    = some [0x00#8, 0x01#8, 0xF0#8, 0xFD#8, 0x02#8, 0xBC#8, 0x0D#8, 0xB1#8] := by
  rw [exec, execEuclid, guardInit_of_initd _ rfl (by decide), ready_field]
  decide +kernel
theorem test_euclid_erasures_cut :
    answerOf (exec (.euclid 0x04#8 0x02#8 [0xF0#8, 0xFE#8, 0x00#8, 0x00#8, 0xDA#8, 0xD5#8]) readyState)
    = some [0x00#8, 0x01#8, 0xF0#8, 0xFE#8, 0x00#8, 0x01#8] := by
  rw [exec, execEuclid, guardInit_of_initd _ rfl (by decide), ready_field]
  decide +kernel
theorem test_finderr : answerOf (exec (.finderr 0x02#8 [0x05#8, 0x6A#8, 0x0F#8] [0x63#8, 0x6B#8]) readyState)
    = some [0x00#8, 0x02#8, 0xC8#8, 0x0F#8, 0x07#8, 0xEA#8] := by
  rw [exec, execFinderr, guardInit_of_initd _ rfl (by decide), ready_field]
  decide +kernel
theorem test_finderr_roots_00_and_01 :
    answerOf (exec (.finderr 0x02#8 [0x00#8, 0x01#8, 0x01#8] [0x55#8, 0x01#8]) readyState)
    = some [0x00#8, 0x02#8, 0x00#8, 0x00#8, 0x00#8, 0x54#8] := by
  rw [exec, execFinderr, guardInit_of_initd _ rfl (by decide), ready_field]
  decide +kernel

/-- The n = 1 codeword `38 01 00 … 00` (V-DEC 6), its symbol 1 replaced. -/
def word1 (v : Byte) : List Byte := [0x38#8, v] ++ zeros 253

/-- V-DEC 6: the syndrome of the received word. -/
theorem word1_syndromes : syndromes builtField (word1 0x77#8) 1 = [0x34#8] := by
  simp only [syndromes, word1, syndromeLoop, evaluate_append_zeros]
  decide +kernel

/-- V-DEC 6: one erasure at position 1. -/
theorem test_decode_word : rsDecode builtField (word1 0x77#8) (0x00#8 :: 0x01#8 :: zeros 253) 1
    = some (word1 0x01#8, 1) := by
  simp only [rsDecode, word1_syndromes]
  decide +kernel

/-- D14: two erasures with n = 1, the word coming back as it went in. -/
theorem test_decode_too_many_erasures :
    answerOf (exec (.decode 0x01#8 (word1 0x01#8) (0x01#8 :: 0x01#8 :: zeros 253)) readyState)
    = some (0x01#8 :: word1 0x01#8) := by
  rw [exec, execDecode, guardInit_of_initd _ rfl (by decide), ready_field]
  decide +kernel

/-! ### Witnesses: a state and operands that meet the hypotheses of each statement, clause by clause

`ready_built` is the witness of every hypothesis `TablesBuilt s` (and `s.initd = true`), `reset_not_initd` of
`s.initd = false`. -/

theorem reset_not_initd : State.reset.initd = false := rfl

theorem ready_initd : readyState.initd = true := rfl

/-- DecodeOfEncodeIsTheCommand, PacketLengthsOfTheFormats, ResponseLengthsOfTheOperations: the ends of the range of n,
and the longest polynomial. -/
theorem witness_wellFormed :
    (Instr.genpoly 0x01#8).WellFormed ∧ (Instr.encode 0xFE#8 [0x5A#8]).WellFormed ∧
      (Instr.peval 0x02#8 (zeros 256)).WellFormed := by decide +kernel

/-- AcceptedPacketIsTheEncoding: a well-formed command and one with an illegal n. -/
theorem witness_accepted :
    Sys2Proof.decode [0x10#8, 0xFE#8] = .ok (.genpoly 0xFE#8) ∧
      Sys2Proof.decode [0x11#8, 0xFF#8, 0x01#8] = .ok (.encode 0xFF#8 []) := ⟨rfl, rfl⟩

/-- ReservedOpcodesAreRefused: bytes at the ends of the reserved ranges, and their unreserved neighbours. -/
theorem witness_reserved :
    [0x06, 0x07, 0x0A, 0x0F, 0x17, 0xFF].all (fun k =>
      k == 0x06 || k == 0x07 || (decide (0x0A ≤ k) && decide (k ≤ 0x0F)) || decide (0x17 ≤ k)) = true ∧
    [0x05, 0x08, 0x09, 0x10, 0x16].all (fun k =>
      !(k == 0x06 || k == 0x07 || (decide (0x0A ≤ k) && decide (k ≤ 0x0F)) || decide (0x17 ≤ k))) = true := by decide

/-- StepRunsTheDecodedCommand. -/
theorem witness_step :
    ({ State.reset with host := [.command 0x00#8 []] } : State).host = .command 0x00#8 [] :: [] ∧
      ({ State.reset with host := [.command 0x00#8 []] } : State).rsp = none ∧
      Sys2Proof.decode [0x00#8] = .ok .init := ⟨rfl, rfl, rfl⟩

/-- UndecodablePacketsFollowTheCheckOrder: a packet for each clause. -/
theorem witness_undecodable :
    (opcodeOfByte 0x07#8 = none ∧ Sys2Proof.decode [0x07#8] = .error (.reservedOpcode 0x07#8)) ∧
    (opcodeOfByte 0x16#8 = some .decode ∧ Sys2Proof.decode [0x16#8] = .error (.wrongLength .decode)) ∧
    (opcodeOfByte 0x00#8 = some .init ∧ Sys2Proof.decode [0x00#8, 0x00#8] = .error (.wrongLength .init)) :=
  ⟨⟨rfl, rfl⟩, ⟨rfl, rfl⟩, ⟨rfl, rfl⟩⟩

/-- IdleAndHeldCoreIsUnchanged, ResetEventClearsTheCore, TablesLastUntilReset (its reset clause): a state for each kind
of event. -/
theorem witness_events (r : Response) :
    State.reset.host = [] ∧
    ({ readyState with host := [.command 0x00#8 []], rsp := some r } : State).rsp = some r ∧
    ({ readyState with host := [.takeResponse] } : State).host = .takeResponse :: [] ∧
    ({ readyState with host := [.reset] } : State).host = .reset :: [] := ⟨rfl, rfl, rfl, rfl⟩

/-- StepKeepsTheTableInvariant: both halves of the invariant, with steps that leave them and a step between them. -/
theorem witness_tableInv :
    TableInv State.reset ∧ TableInv readyState ∧ step readyState = .next readyState ∧
      step { readyState with host := [.reset] } = .next State.reset :=
  ⟨.inl ⟨rfl, rfl, rfl, rfl⟩, .inr ready_built, rfl, rfl⟩

/-- OnlyInitWritesTheTables, UninitialisedCoreRefusesAllButInit. -/
theorem witness_notInit : Instr.genpoly 0x04#8 ≠ .init ∧
    exec (.genpoly 0x04#8) State.reset = .next (State.reset.answered .errNotInit []) := ⟨by decide, rfl⟩

/-- RefusalIsTheStatusByteAlone: an `INIT` that is refused. -/
theorem witness_refusal : exec .init readyState = .next (readyState.answered .errAlreadyInit []) ∧
    (readyState.answered .errAlreadyInit []).rsp = some ⟨.errAlreadyInit, []⟩ ∧
    Status.errAlreadyInit.isRefusal = true := ⟨rfl, rfl, rfl⟩

/-- ResponseLengthsOfTheOperations: a well-formed command with its next state and response. -/
theorem witness_responseLength : (Instr.euclid 0x04#8 0x05#8 [0x00#8]).WellFormed ∧
    exec (.euclid 0x04#8 0x05#8 [0x00#8]) readyState = .next (readyState.answered .uncorrectable []) :=
  ⟨by decide, rfl⟩

/-- ResponseLengthsOfTheOperations, the two D bytes of EUCLID's OK response: the two-error example of R142. -/
theorem witness_euclidResponse :
    (Instr.euclid 0x04#8 0x00#8 [0xB3#8, 0xD2#8, 0x77#8, 0x25#8]).WellFormed ∧
    exec (.euclid 0x04#8 0x00#8 [0xB3#8, 0xD2#8, 0x77#8, 0x25#8]) readyState
      = .next (readyState.answered .ok [0x01#8, 0xF0#8, 0xFD#8, 0x02#8, 0xBC#8, 0x0D#8, 0xB1#8]) := by
  refine ⟨by decide, ?_⟩
  rw [exec, execEuclid, guardInit_of_initd _ rfl (by decide), ready_field, guardParity_of_legal _ (by decide),
    if_neg (by decide)]
  have h : normalField (euclid builtField [0xB3#8, 0xD2#8, 0x77#8, 0x25#8] (0x04#8).toNat (0x00#8).toNat).r ++
      normalField (euclid builtField [0xB3#8, 0xD2#8, 0x77#8, 0x25#8] (0x04#8).toNat (0x00#8).toNat).t
      = [0x01#8, 0xF0#8, 0xFD#8, 0x02#8, 0xBC#8, 0x0D#8, 0xB1#8] := by decide +kernel
  exact congrArg (fun payload => respond .ok payload readyState) h

/-- The range of the parity count: legal and illegal values at its ends (every statement about n). -/
theorem witness_parity :
    parityInRange 0x01#8 = true ∧ parityInRange 0xFE#8 = true ∧
      parityInRange 0x00#8 = false ∧ parityInRange 0xFF#8 = false := by decide

/-- The lengths of messages, words and masks (ENCODE, SYND, ERALOC, DECODE), met and missed. -/
theorem witness_lengths :
    (zeros 254).length = 255 - (0x01#8).toNat ∧ (zeros 1).length = 255 - (0xFE#8).toNat ∧
      (zeros 255).length = 255 ∧ (zeros 254).length ≠ 255 ∧ (zeros 509).length ≠ 510 := by decide +kernel

/-- PevalAnswersThePolynomialValue, PmulAnswersTheProduct, EuclidOutcomesWithoutAResult, FinderrAnswersTheRoots:
operand bytes that are no legal field sequence. -/
theorem witness_noField : (∀ (x : Byte) p, polyFits p = true → ([] : List Byte) ≠ x :: polyField p) ∧
    (∀ p q, polyFits p = true → polyFits q = true → ([] : List Byte) ≠ polyField p ++ polyField q) :=
  ⟨fun _ _ _ h => (nomatch h), fun _ _ _ _ h => (nomatch h)⟩

/-- PmulAnswersTheProduct: degrees that sum to 255 and to 256, and factors that are not zero. -/
theorem witness_pmul :
    deg (zeros 127 ++ [0x01#8]) + deg (zeros 128 ++ [0x01#8]) ≤ 255 ∧
      deg (zeros 128 ++ [0x01#8]) + deg (zeros 128 ++ [0x01#8]) > 255 ∧
      lead [0x02#8, 0x03#8] ≠ 0x00#8 := by decide +kernel

/-- RootMultiplyIsMultiplication. -/
theorem witness_rootMultiply : trim [0x38#8, 0x01#8] = [0x38#8, 0x01#8] ∧ lead [0x38#8, 0x01#8] ≠ 0x00#8 := by
  decide

/-- The Euclidean statements: s at both ends of 0 to n, s above n, and a product of small degree. -/
theorem witness_euclid :
    (0x00#8).toNat ≤ (0x04#8).toNat ∧ (0x04#8).toNat ≤ (0x04#8).toNat ∧ (0x05#8).toNat > (0x04#8).toNat ∧
      deg ([0xF0#8, 0xFE#8, 0x00#8, 0x00#8, 0xDA#8].take 4) ≤ euclidBound 4 2 := by decide

/-- StoppingBoundValue: both ends of both ranges (R140's own values). -/
theorem witness_bound : euclidBound 1 0 = 0 ∧ euclidBound 1 1 = 0 ∧ euclidBound 254 0 = 126 ∧
    euclidBound 254 254 = 253 := by decide

/-- FinderrAnswersTheRoots: sigma = 1 has no root, so that 0 is the declared degree that fits and 1 is not. -/
theorem witness_roots : (rootList [0x01#8]).length = (0x00#8).toNat ∧ (rootList [0x01#8]).length ≠ (0x01#8).toNat := by
  decide +kernel

/-- The received word of the decoding witnesses: the zero codeword with one wrong symbol, at position 5. -/
def oneWrong : List Byte := zeros 5 ++ 0x01#8 :: zeros 249

theorem encode_zeros : exec (.encode 0x02#8 (zeros 253)) readyState
    = .next (readyState.answered .ok (zeros 255)) := by
  rw [exec, execEncode, guardInit_of_initd _ rfl (by decide), ready_field, guardParity_of_legal _ (by decide),
    guardLength_of_eq _ (by decide +kernel)]
  rw [show rsEncode builtField (zeros 253) (0x02#8).toNat = zeros 255 by decide +kernel]
  rfl

/-- DecodeFillsErasures: the wrong symbol is flagged. -/
theorem witness_fillsErasures : errorCount (zeros 255) oneWrong oneWrong = 0 ∧
    erasureCount oneWrong ≤ (0x02#8).toNat ∧ oneWrong.length = 255 := by decide +kernel

/-- DecodeCorrectsWithinTheRadius: the wrong symbol is not flagged. -/
theorem witness_withinRadius : errorCount (zeros 255) oneWrong (zeros 255) = 1 ∧
    2 * errorCount (zeros 255) oneWrong (zeros 255) + erasureCount (zeros 255) ≤ (0x02#8).toNat := by
  decide +kernel

/-- DecodeAnswersAWholeWordOrTheReceivedOne, its clause of another number of roots: the third example of R161, four
syndromes whose locator `[A9 23 75]` has degree 2 and no root. -/
theorem witness_noRoots :
    (euclid builtField [0x4D#8, 0x56#8, 0x57#8, 0xB5#8] 4 0).t = [0xA9#8, 0x23#8, 0x75#8] ∧
      deg [0xA9#8, 0x23#8, 0x75#8] = 2 ∧ (rootList [0xA9#8, 0x23#8, 0x75#8]).length = 0 := by decide +kernel

/-- DecodeAnswersAWholeWordOrTheReceivedOne, its clause of the declared number of roots: R161's two erasures at 20 and
100, `[E1 DE 01]` having the two roots of R152. -/
theorem witness_declaredRoots :
    (euclid builtField [0xF0#8, 0xFE#8, 0x00#8, 0x00#8] 4 2).t = [0x01#8] ∧
      rootList [0xE1#8, 0xDE#8, 0x01#8] = [0x2C#8, 0xF2#8] := by decide +kernel

/-- R160(c): two entries at position 0, both applied, and one at 254. -/
theorem test_corrected :
    corrected (zeros 255) [(0x00#8, 0x0F#8), (0xFE#8, 0x55#8), (0x00#8, 0xF1#8)]
      = 0xFE#8 :: (zeros 253 ++ [0x55#8]) := by decide +kernel

/-- DecodeOutcomesWithoutCorrection, and the first clause of DecodeAnswersAWholeWordOrTheReceivedOne: two positions
flagged with n = 1. -/
theorem witness_tooManyErasures : erasureCount (0x01#8 :: 0x01#8 :: zeros 253) > (0x01#8).toNat := by decide +kernel

end Sys2Proof.Tests
end

/-! PROOFS. The order of the primitive element 0xAC (spec 00_scope.md R6(b)): its powers are the orbit of 0x01 under
multiplication by it, and the least period of that orbit is 255. -/

namespace Sys2Proof.Machine

open Function

/-- One multiplication by the primitive element, the step from each power to the next. -/
def timesA (x : Byte) : Byte := mulBitwise x 0xAC#8

theorem isFixedPt_timesA_zero : IsFixedPt timesA 0x00#8 := mulBitwise_zero_left _

theorem aPow_eq_iterate (e : Nat) : aPow e = timesA^[e] 0x01#8 := by
  induction e with
  | zero => rfl
  | succ e ih => rw [iterate_succ_apply', ← ih]; rfl

theorem isPeriodicPt_timesA_iff (e : Nat) : IsPeriodicPt timesA e 0x01#8 ↔ aPow e = 0x01#8 := by
  rw [aPow_eq_iterate]; rfl

theorem aPow_255 : aPow 255 = 0x01#8 := by decide +kernel

/-- The powers at the three maximal proper divisors of 255 = 3 · 5 · 17, which the order of 0xAC would divide if it
were less than 255. -/
theorem aPow_maximalDivisors_ne_one : aPow 85 ≠ 0x01#8 ∧ aPow 51 ≠ 0x01#8 ∧ aPow 15 ≠ 0x01#8 := by decide +kernel

theorem dvd_maximalDivisor_of_dvd_255 {d : Nat} (h : d ∣ 255) : d = 255 ∨ d ∣ 85 ∨ d ∣ 51 ∨ d ∣ 15 := by
  have hall : ∀ d ≤ 255, d ∣ 255 → d = 255 ∨ d ∣ 85 ∨ d ∣ 51 ∨ d ∣ 15 := by decide +kernel
  exact hall d (Nat.le_of_dvd (by decide) h) h

/-- R6(b): 0xAC has order 255. -/
theorem minimalPeriod_timesA : minimalPeriod timesA 0x01#8 = 255 := by
  have hdvd (e : Nat) : minimalPeriod timesA 0x01#8 ∣ e ↔ aPow e = 0x01#8 := by
    rw [← isPeriodicPt_iff_minimalPeriod_dvd, isPeriodicPt_timesA_iff]
  obtain ⟨h85, h51, h15⟩ := aPow_maximalDivisors_ne_one
  obtain h | h | h | h := dvd_maximalDivisor_of_dvd_255 ((hdvd 255).mpr aPow_255)
  · exact h
  · exact absurd ((hdvd 85).mp h) h85
  · exact absurd ((hdvd 51).mp h) h51
  · exact absurd ((hdvd 15).mp h) h15

theorem aPow_eq_one_iff (e : Nat) : aPow e = 0x01#8 ↔ 255 ∣ e := by
  rw [← isPeriodicPt_timesA_iff, isPeriodicPt_iff_minimalPeriod_dvd, minimalPeriod_timesA]

theorem aPow_injOn : Set.InjOn aPow (Set.Iio 255) := by
  rw [funext aPow_eq_iterate, ← minimalPeriod_timesA]
  exact iterate_injOn_Iio_minimalPeriod

/-- An orbit that met the fixed point 0x00 of `timesA` would stay there and never come back to 0x01. -/
theorem aPow_ne_zero (e : Nat) : aPow e ≠ 0x00#8 := by
  intro h
  have hone : aPow (254 * e + e) = 0x01#8 := (aPow_eq_one_iff _).mpr ⟨e, by omega⟩
  have hzero : aPow (254 * e + e) = 0x00#8 := by
    rw [aPow_eq_iterate, iterate_add_apply, ← aPow_eq_iterate, h]
    exact iterate_fixed isFixedPt_timesA_zero _
  rw [hzero] at hone
  exact absurd hone (by decide)

theorem card_byte : Fintype.card Byte = 256 := FinEnum.card_eq_fintypeCard.symm.trans (FinEnum.card_bitVec 8)

/-- The 255 different powers are as many as the non-zero bytes, so that they are all of them. -/
theorem exists_aPow_eq {x : Byte} (hx : x ≠ 0x00#8) : ∃ e, e < 255 ∧ aPow e = x := by
  have hsurj : Set.SurjOn aPow (Finset.range 255) ((Finset.univ : Finset Byte).erase 0x00#8) := by
    apply Finset.surjOn_of_injOn_of_card_le
    · intro e _
      simp [aPow_ne_zero e]
    · simpa using aPow_injOn
    · rw [Finset.card_erase_of_mem (Finset.mem_univ _), Finset.card_univ, Finset.card_range, card_byte]
  obtain ⟨e, he, hex⟩ := hsurj (by simpa using hx)
  exact ⟨e, by simpa using he, hex⟩

/-- Settles O24: the order of 0xAC is 255, so that the powers below 255 are different, and there are as many of them as
non-zero bytes. -/
theorem powersOfThePrimitiveElement : Obligations.PowersOfThePrimitiveElement :=
  ⟨aPow_255, fun _ _ hi hj h => aPow_injOn hi hj h, fun _ hx => exists_aPow_eq hx⟩

end Sys2Proof.Machine

/-! PROOFS. The tables over the core's life (spec 10_state.md R24 to R27, R37, R53): absent until `INIT`, built by it,
kept by every other command, and absent again after reset. -/

namespace Sys2Proof.Machine

/-- Every command begins with the initialisation check (60_exceptions.md R173 step 2). -/
theorem exec_eq_guardInit (i : Instr) (s : State) : ∃ k, exec i s = guardInit i.opcode s k := by
  cases i <;> exact ⟨_, rfl⟩

theorem opcode_ne_init {i : Instr} (h : i ≠ .init) : i.opcode ≠ .init := by
  cases i with
  | init => exact absurd rfl h
  | _ => exact Opcode.noConfusion

/-- Every command but `INIT` ends with one response and writes nothing else. -/
theorem answers_exec {i : Instr} (s : State) (h : i ≠ .init) : Answers s (exec i s) := by
  cases i with
  | init => exact absurd rfl h
  | gfmul a b => exact answers_execGfmul s a b
  | gfinv x => exact answers_execGfinv s x
  | gflog x => exact answers_execGflog s x
  | gfexp e => exact answers_execGfexp s e
  | gfpow111 x => exact answers_execGfpow111 s x
  | peval x p => exact answers_execPeval s x p
  | pmul p q => exact answers_execPmul s p q
  | genpoly n => exact answers_execGenpoly s n
  | encode n message => exact answers_execEncode s n message
  | synd n word => exact answers_execSynd s n word
  | eraloc mask => exact answers_execEraloc s mask
  | euclid n c product => exact answers_execEuclid s n c product
  | finderr d sigma omega => exact answers_execFinderr s d sigma omega
  | decode n received mask => exact answers_execDecode s n received mask

/-- With no response held, the packet that the host presents next is taken whole and executed (30_encoding.md R62). -/
theorem step_of_command {s : State} {op : Byte} {fields : List Byte} {rest : List HostEvent}
    (hh : s.host = .command op fields :: rest) (hr : s.rsp = none) :
    step s = runPacket op fields { s with host := rest } := by
  simp only [step, nextEvent, hh, takeCommand, hr]

theorem runPacket_of_decode_ok {op : Byte} {fields : List Byte} {i : Instr} (s : State)
    (hd : Sys2Proof.decode (op :: fields) = .ok i) : runPacket op fields s = exec i s := by
  simp only [runPacket, hd]

theorem runPacket_of_decode_error {op : Byte} {fields : List Byte} {e : DecodeError} (s : State)
    (hd : Sys2Proof.decode (op :: fields) = .error e) : runPacket op fields s = refusePacket e s := by
  simp only [runPacket, hd]

theorem TableInv.setRsp {s : State} (h : TableInv s) (r : Option Response) : TableInv { s with rsp := r } :=
  h.imp (·.setRsp r) (·.setRsp r)

theorem TableInv.setHost {s : State} (h : TableInv s) (e : List HostEvent) : TableInv { s with host := e } :=
  h.imp (·.setHost e) (·.setHost e)

theorem tablesAbsent_reset : TablesAbsent State.reset := ⟨rfl, rfl, rfl, rfl⟩

theorem TableInv.of_answers {s t : State} {r : Result} (h : TableInv s) (ha : Answers s r) (hr : r = .next t) :
    TableInv t := by
  obtain ⟨p, rfl⟩ := ha
  cases hr
  exact h.setRsp (some p)

/-- `INIT` takes a core without tables to one with built tables, and is refused on one that has them (R53). -/
theorem execInit_keeps_tableInv {s t : State} (h : TableInv s) (hr : execInit s = .next t) : TableInv t := by
  obtain ⟨-, he⟩ | ⟨-, he⟩ := execInit_cases s
  · exact h.of_answers (answers_raise s .errAlreadyInit) (he.symm.trans hr)
  · cases he.symm.trans hr
    exact .inr (tablesBuilt_of_init s _)

theorem exec_keeps_tableInv {i : Instr} {s t : State} (h : TableInv s) (hr : exec i s = .next t) : TableInv t := by
  by_cases hi : i = .init
  · subst hi
    exact execInit_keeps_tableInv h hr
  · exact h.of_answers (answers_exec s hi) hr

theorem runPacket_keeps_tableInv {op : Byte} {fields : List Byte} {s t : State} (h : TableInv s)
    (hr : runPacket op fields s = .next t) : TableInv t := by
  cases hd : Sys2Proof.decode (op :: fields) with
  | ok i => exact exec_keeps_tableInv h ((runPacket_of_decode_ok s hd).symm.trans hr)
  | error e => exact h.of_answers (answers_refusePacket e s) ((runPacket_of_decode_error s hd).symm.trans hr)

/-- Settles O13: by the forms a step can have; only `INIT` and reset write the tables, the one building them and the
other emptying them. -/
theorem stepKeepsTheTableInvariant : Obligations.StepKeepsTheTableInvariant := by
  intro s t h hstep
  obtain ⟨-, idle⟩ | ⟨_, _, _, _, -, -, waiting⟩ | ⟨_, _, rest, -, -, packet⟩ | ⟨rest, -, taken⟩ | ⟨rest, -, reset⟩ :=
    step_cases s
  · cases idle.symm.trans hstep
    exact h
  · cases waiting.symm.trans hstep
    exact h
  · exact runPacket_keeps_tableInv (h.setHost rest) (packet.symm.trans hstep)
  · cases taken.symm.trans hstep
    exact (h.setRsp none).setHost rest
  · cases reset.symm.trans hstep
    exact .inl (tablesAbsent_reset.setHost rest)

/-- Settles O20: the check that every command begins with refuses it before its operands are looked at. -/
theorem uninitialisedCoreRefusesAllButInit : Obligations.UninitialisedCoreRefusesAllButInit := by
  intro i s hi hs
  obtain ⟨k, hk⟩ := exec_eq_guardInit i s
  rw [hk, guardInit_of_not_initd k hs (opcode_ne_init hi)]
  rfl

/-- Settles O6: the packet is taken whole, and a packet that decodes runs its command. -/
theorem stepRunsTheDecodedCommand : Obligations.StepRunsTheDecodedCommand := by
  intro s op fields rest i hh hr hd
  rw [step_of_command hh hr, runPacket_of_decode_ok _ hd]

/-- Settles O10: both memories of the reset state list no cell. -/
theorem resetStateHoldsNoTableValue : Obligations.ResetStateHoldsNoTableValue :=
  ⟨rfl, Memory.read_nil, Memory.read_nil, rfl⟩

/-- Settles O12: the reset state is the one without tables, and a memory that lists no cell is canonical. -/
theorem resetMeetsTheTableInvariant : Obligations.ResetMeetsTheTableInvariant :=
  ⟨.inl tablesAbsent_reset, Memory.wf_nil multSize, Memory.wf_nil invtSize⟩

end Sys2Proof.Machine

/-! PROOFS. The table memories (spec 20_memory.md R44 to R47, R53): which commands and events write them, and what a
response can depend on once they are built. -/

namespace Sys2Proof.Machine

/-- Settles O14: such a command ends with one response and writes nothing else. -/
theorem onlyInitWritesTheTables : Obligations.OnlyInitWritesTheTables := by
  intro i s t hi hexec
  obtain ⟨p, hp⟩ := answers_exec s hi
  cases hp.symm.trans hexec
  exact ⟨fun _ => rfl, fun _ => rfl, rfl, rfl, rfl, p, rfl⟩

/-! ### The tables last until a reset -/

theorem exec_init_of_initd {s : State} (h : s.initd = true) :
    exec .init s = .next (s.answered .errAlreadyInit []) := by
  obtain ⟨-, refused⟩ | ⟨hn, -⟩ := execInit_cases s
  · exact refused
  · exact Bool.noConfusion (h.symm.trans hn)

/-- While `INITD` is 1 the rule of the other commands holds for `INIT` too, which is refused. -/
theorem answers_exec_of_initd (i : Instr) {s : State} (h : s.initd = true) : Answers s (exec i s) := by
  by_cases hi : i = .init
  · subst hi
    exact ⟨_, exec_init_of_initd h⟩
  · exact answers_exec s hi

theorem answers_runPacket_of_initd (op : Byte) (fields : List Byte) {s : State} (h : s.initd = true) :
    Answers s (runPacket op fields s) := by
  cases hd : Sys2Proof.decode (op :: fields) with
  | ok i => exact runPacket_of_decode_ok s hd ▸ answers_exec_of_initd i h
  | error e => exact runPacket_of_decode_error s hd ▸ answers_refusePacket e s

theorem step_of_reset {s : State} {rest : List HostEvent} (hh : s.host = .reset :: rest) :
    step s = .next { State.reset with host := rest } := by
  simp only [step, nextEvent, hh, assertReset]

/-- Once the tables are built, a step that is not a reset changes the response and the host's events alone. -/
theorem step_frame_of_initd {s t : State} (h : s.initd = true) (hne : ∀ rest, s.host ≠ .reset :: rest)
    (hstep : step s = .next t) : ∃ r e, t = { s with rsp := r, host := e } := by
  obtain ⟨-, idle⟩ | ⟨_, _, _, _, -, -, waiting⟩ | ⟨op, fields, rest, -, -, packet⟩ | ⟨rest, -, taken⟩ |
    ⟨rest, hh, -⟩ := step_cases s
  · cases idle.symm.trans hstep
    exact ⟨s.rsp, s.host, rfl⟩
  · cases waiting.symm.trans hstep
    exact ⟨s.rsp, s.host, rfl⟩
  · obtain ⟨p, hp⟩ := answers_runPacket_of_initd op fields (s := { s with host := rest }) h
    cases hp.symm.trans (packet.symm.trans hstep)
    exact ⟨some p, rest, rfl⟩
  · cases taken.symm.trans hstep
    exact ⟨none, rest, rfl⟩
  · exact absurd hh (hne rest)

/-- Settles O15: a step that is not a reset writes no table, and a reset leaves the state without tables. -/
theorem tablesLastUntilReset : Obligations.TablesLastUntilReset := by
  intro s t hs hstep
  refine ⟨fun hne => ?_, exec_init_of_initd hs, fun ⟨rest, hh⟩ => ?_⟩
  · obtain ⟨r, e, rfl⟩ := step_frame_of_initd hs hne hstep
    exact ⟨hs, rfl, rfl, rfl⟩
  · cases (step_of_reset hh).symm.trans hstep
    exact ⟨rfl, fun addr => ⟨Memory.read_nil addr, Memory.read_nil addr⟩, rfl⟩

/-! ### The response depends on the command and the table contents alone -/

/-- Two runs end with the same response, each writing nothing else. -/
def AnswerAlike (s₁ s₂ : State) (r₁ r₂ : Result) : Prop :=
  ∃ st payload, r₁ = .next (s₁.answered st payload) ∧ r₂ = .next (s₂.answered st payload)

section
variable {s₁ s₂ : State} {k₁ k₂ : Result}

theorem answerAlike_respond (st : Status) (payload : List Byte) :
    AnswerAlike s₁ s₂ (respond st payload s₁) (respond st payload s₂) := ⟨st, payload, rfl, rfl⟩

theorem answerAlike_raise (st : Status) : AnswerAlike s₁ s₂ (raise st s₁) (raise st s₂) := ⟨st, [], rfl, rfl⟩

theorem initStatus_congr (op : Opcode) (h : s₁.initd = s₂.initd) : initStatus op s₁ = initStatus op s₂ := by
  simp only [initStatus, h]

theorem answerAlike_guardInit {op : Opcode} (hi : s₁.initd = s₂.initd) (hk : AnswerAlike s₁ s₂ k₁ k₂) :
    AnswerAlike s₁ s₂ (guardInit op s₁ k₁) (guardInit op s₂ k₂) := by
  simp only [guardInit, initStatus_congr op hi]
  cases initStatus op s₂ with
  | some st => exact answerAlike_raise st
  | none => exact hk

theorem answerAlike_guardParity {n : Byte} (hk : AnswerAlike s₁ s₂ k₁ k₂) :
    AnswerAlike s₁ s₂ (guardParity n s₁ k₁) (guardParity n s₂ k₂) := by
  unfold guardParity
  split
  · exact hk
  · exact answerAlike_raise .errParam

theorem answerAlike_guardLength {w : List Byte} {len : Nat} (hk : AnswerAlike s₁ s₂ k₁ k₂) :
    AnswerAlike s₁ s₂ (guardLength w len s₁ k₁) (guardLength w len s₂ k₂) := by
  unfold guardLength
  split
  · exact hk
  · exact answerAlike_raise .errLength

theorem answerAlike_execPmul (p q : List Byte) (hi : s₁.initd = s₂.initd) (hf : s₁.field = s₂.field) :
    AnswerAlike s₁ s₂ (execPmul p q s₁) (execPmul p q s₂) := by
  refine answerAlike_guardInit hi ?_
  rw [hf]
  split
  · exact answerAlike_raise .errParam
  · exact answerAlike_respond .ok _

theorem answerAlike_execEuclid (n c : Byte) (product : List Byte) (hi : s₁.initd = s₂.initd)
    (hf : s₁.field = s₂.field) : AnswerAlike s₁ s₂ (execEuclid n c product s₁) (execEuclid n c product s₂) := by
  refine answerAlike_guardInit hi (answerAlike_guardParity ?_)
  rw [hf]
  split
  · exact answerAlike_respond .uncorrectable []
  · exact answerAlike_respond .ok _

theorem answerAlike_execFinderr (d : Byte) (sigma omega : List Byte) (hi : s₁.initd = s₂.initd)
    (hf : s₁.field = s₂.field) : AnswerAlike s₁ s₂ (execFinderr d sigma omega s₁) (execFinderr d sigma omega s₂) := by
  refine answerAlike_guardInit hi ?_
  rw [hf]
  cases findErrors s₂.field sigma omega d.toNat with
  | none => exact answerAlike_respond .uncorrectable []
  | some found => exact answerAlike_respond .ok _

theorem answerAlike_execDecode (n : Byte) (received mask : List Byte) (hi : s₁.initd = s₂.initd)
    (hf : s₁.field = s₂.field) :
    AnswerAlike s₁ s₂ (execDecode n received mask s₁) (execDecode n received mask s₂) := by
  refine answerAlike_guardInit hi (answerAlike_guardParity (answerAlike_guardLength (answerAlike_guardLength ?_)))
  rw [hf]
  cases rsDecode s₂.field received mask n.toNat with
  | none => exact answerAlike_respond .uncorrectable received
  | some found => exact answerAlike_respond .ok _

/-- A command other than `INIT` reads `INITD` and the table contents and nothing else of the state (20_memory.md R47):
every meaning is its checks followed by a response computed from the operands and `State.field`. -/
theorem answerAlike_exec {i : Instr} (h : i ≠ .init) (hi : s₁.initd = s₂.initd) (hf : s₁.field = s₂.field) :
    AnswerAlike s₁ s₂ (exec i s₁) (exec i s₂) := by
  have computed (f : Field → List Byte) :
      AnswerAlike s₁ s₂ (respond .ok (f s₁.field) s₁) (respond .ok (f s₂.field) s₂) :=
    hf ▸ answerAlike_respond .ok (f s₁.field)
  cases i with
  | init => exact absurd rfl h
  | gfmul a b => exact answerAlike_guardInit hi (computed fun F => [F.mul a b])
  | gfinv x => exact answerAlike_guardInit hi (computed fun F => [F.inv x])
  | gflog x => exact answerAlike_guardInit hi (computed fun F => [byteOf (logA F.mul x)])
  | gfexp e => exact answerAlike_guardInit hi (computed fun F => [expA F.mul e.toNat])
  | gfpow111 x => exact answerAlike_guardInit hi (computed fun F => [pow111 F.mul x])
  | peval x p => exact answerAlike_guardInit hi (computed fun F => [evaluate F p x])
  | pmul p q => exact answerAlike_execPmul p q hi hf
  | genpoly n =>
    exact answerAlike_guardInit hi (answerAlike_guardParity (computed fun F => normalField (buildGenerator F n.toNat)))
  | encode n message =>
    exact answerAlike_guardInit hi (answerAlike_guardParity (answerAlike_guardLength
      (computed fun F => rsEncode F message n.toNat)))
  | synd n word =>
    exact answerAlike_guardInit hi (answerAlike_guardParity (answerAlike_guardLength
      (computed fun F => syndromes F word n.toNat)))
  | eraloc mask =>
    exact answerAlike_guardInit hi (answerAlike_guardLength
      (computed fun F => byteOf (erasureLocator F mask).2 :: normalField (erasureLocator F mask).1))
  | euclid n c product => exact answerAlike_execEuclid n c product hi hf
  | finderr d sigma omega => exact answerAlike_execFinderr d sigma omega hi hf
  | decode n received mask => exact answerAlike_execDecode n received mask hi hf

end

/-- Settles O17: built tables have the same contents in every state, and a second `INIT` is refused in both. -/
theorem responsesDependOnlyOnTheCommand : Obligations.ResponsesDependOnlyOnTheCommand := by
  intro i s₁ s₂ h₁ h₂
  by_cases hi : i = .init
  · subst hi
    exact ⟨.errAlreadyInit, [], exec_init_of_initd h₁.initd, exec_init_of_initd h₂.initd⟩
  · exact answerAlike_exec hi (h₁.initd.trans h₂.initd.symm)
      ((field_of_tablesBuilt h₁).trans (field_of_tablesBuilt h₂).symm)

end Sys2Proof.Machine

/-! PROOFS. The packets and the commands (spec 30_encoding.md R60 to R68): each reader of the decoder undoes what the
encoder writes and reads nothing else, so that the two are inverse on the well-formed commands. -/

namespace Sys2Proof

section
variable {n : Byte} {bs rest : List Byte} {r : Instr × List Byte}

/-! ### The readers on the fields the encoder writes -/

theorem withByte_cons (b : Byte) (k : Byte → List Byte → Option (Instr × List Byte)) :
    withByte (b :: rest) k = k b rest := rfl

theorem withBytes_append {w : List Byte} {count : Nat} (h : w.length = count)
    (k : List Byte → List Byte → Option (Instr × List Byte)) : withBytes count (w ++ rest) k = k w rest := by
  subst h
  simp only [withBytes, takeBytes_append]

theorem withPoly_polyField {p : List Byte} (h : polyFits p = true)
    (k : List Byte → List Byte → Option (Instr × List Byte)) : withPoly (polyField p ++ rest) k = k p rest := by
  simp only [withPoly, takePoly_polyField h]

theorem withParity_of_legal (h : parityInRange n = true) (illegal : Byte → Instr)
    (k : Byte → List Byte → Option (Instr × List Byte)) : withParity (n :: rest) illegal k = k n rest := by
  simp only [withParity, withByte_cons, parityLegal_eq, h, if_true]

theorem withParity_of_illegal (h : parityInRange n = false) (illegal : Byte → Instr)
    (k : Byte → List Byte → Option (Instr × List Byte)) :
    withParity (n :: rest) illegal k = some (illegal n, []) := by
  simp only [withParity, withByte_cons, parityLegal_eq, h, Bool.false_eq_true, if_false]

/-! ### What a reader that succeeds says of the bytes -/

theorem withByte_eq_some {k : Byte → List Byte → Option (Instr × List Byte)} (h : withByte bs k = some r) :
    ∃ b rest, bs = b :: rest ∧ k b rest = some r := by
  cases bs with
  | nil => cases h
  | cons b rest => exact ⟨b, rest, rfl, h⟩

theorem withBytes_eq_some {count : Nat} {k : List Byte → List Byte → Option (Instr × List Byte)}
    (h : withBytes count bs k = some r) : ∃ w rest, bs = w ++ rest ∧ w.length = count ∧ k w rest = some r := by
  unfold withBytes at h
  split at h
  · cases h
  · next w rest ht =>
    obtain ⟨hbs, hw⟩ := takeBytes_eq_some ht
    exact ⟨w, rest, hbs, hw, h⟩

theorem withPoly_eq_some {k : List Byte → List Byte → Option (Instr × List Byte)} (h : withPoly bs k = some r) :
    ∃ p rest, bs = polyField p ++ rest ∧ polyFits p = true ∧ k p rest = some r := by
  unfold withPoly at h
  split at h
  · cases h
  · next p rest ht =>
    obtain ⟨hbs, hp⟩ := takePoly_eq_some ht
    exact ⟨p, rest, hbs, hp, h⟩

theorem withParity_eq_some {illegal : Byte → Instr} {k : Byte → List Byte → Option (Instr × List Byte)}
    (h : withParity bs illegal k = some r) :
    ∃ n rest, bs = n :: rest ∧
      (parityInRange n = true ∧ k n rest = some r ∨ parityInRange n = false ∧ r = (illegal n, [])) := by
  obtain ⟨n, rest, rfl, -⟩ := withByte_eq_some h
  refine ⟨n, rest, rfl, ?_⟩
  cases hn : parityInRange n with
  | true => exact .inl ⟨rfl, (withParity_of_legal hn illegal k).symm.trans h⟩
  | false => exact .inr ⟨rfl, Option.some.inj (h.symm.trans (withParity_of_illegal hn illegal k))⟩

end

/-! ### The decoder on the encoder's packets -/

/-- The fields of a well-formed command are read back, and what follows them is left over (R63, R64). -/
theorem readFields_operandBytes {i : Instr} (h : i.WellFormed) (rest : List Byte) :
    readFields i.opcode (operandBytes i ++ rest) = some (i, rest) := by
  cases i with
  | init | gfmul | gfinv | gflog | gfexp | gfpow111 => rfl
  | peval x p => exact withPoly_polyField h _
  | pmul p q =>
    obtain ⟨hp, hq⟩ := Bool.and_eq_true_iff.mp h
    simp only [Instr.opcode, operandBytes, List.append_assoc, readFields, withPoly_polyField hp, withPoly_polyField hq]
  | genpoly n => exact withParity_of_legal h _ _
  | encode n message =>
    obtain ⟨hn, hm⟩ := Bool.and_eq_true_iff.mp h
    exact (withParity_of_legal hn _ _).trans (withBytes_append (of_decide_eq_true hm) _)
  | synd n word =>
    obtain ⟨hn, hw⟩ := Bool.and_eq_true_iff.mp h
    exact (withParity_of_legal hn _ _).trans (withBytes_append (of_decide_eq_true hw) _)
  | eraloc mask => exact withBytes_append (of_decide_eq_true h) _
  | euclid n c p =>
    obtain ⟨hn, hp⟩ := Bool.and_eq_true_iff.mp h
    exact (withParity_of_legal hn _ _).trans (withPoly_polyField hp _)
  | finderr d sigma omega =>
    obtain ⟨hs, ho⟩ := Bool.and_eq_true_iff.mp h
    simp only [Instr.opcode, operandBytes, List.cons_append, List.append_assoc, readFields, withByte_cons,
      withPoly_polyField hs, withPoly_polyField ho]
  | decode n received mask =>
    obtain ⟨hnr, hm⟩ := Bool.and_eq_true_iff.mp h
    obtain ⟨hn, hr⟩ := Bool.and_eq_true_iff.mp hnr
    simp only [Instr.opcode, operandBytes, List.cons_append, List.append_assoc, readFields, withParity_of_legal hn,
      withBytes_append (of_decide_eq_true hr), withBytes_append (of_decide_eq_true hm)]

section
variable {b : Byte} {op : Opcode} {fields : List Byte} {i : Instr}

theorem decode_of_reserved (hop : opcodeOfByte b = none) : decode (b :: fields) = .error (.reservedOpcode b) := by
  simp only [decode, hop]

theorem decode_of_readFields (hop : opcodeOfByte b = some op) (hr : readFields op fields = some (i, [])) :
    decode (b :: fields) = .ok i := by
  simp only [decode, hop, hr]

theorem decode_of_wrongLength (hop : opcodeOfByte b = some op) (hr : ∀ i, readFields op fields ≠ some (i, [])) :
    decode (b :: fields) = .error (.wrongLength op) := by
  simp only [decode, hop] -- `hr` rules out the branch of the match that accepts

/-- A packet is a command only when its opcode is an operation's and the fields of that operation use all of the bytes
that follow (R65, R68). -/
theorem exists_readFields_of_decode (h : decode (b :: fields) = .ok i) :
    ∃ op, opcodeOfByte b = some op ∧ readFields op fields = some (i, []) := by
  cases hop : opcodeOfByte b with
  | none => cases (decode_of_reserved hop).symm.trans h
  | some op =>
    by_cases hr : ∃ j, readFields op fields = some (j, [])
    · obtain ⟨j, hj⟩ := hr
      cases (decode_of_readFields hop hj).symm.trans h
      exact ⟨op, rfl, hj⟩
    · cases (decode_of_wrongLength hop (not_exists.mp hr)).symm.trans h

/-- The opcode byte is read back as the operation, and the fields as the operands. -/
theorem decode_encode (h : i.WellFormed) : decode (encode i) = .ok i := by
  have hr := readFields_operandBytes h []
  rw [List.append_nil] at hr
  exact decode_of_readFields (opcodeOfByte_code i.opcode) hr

theorem decode_of_encode_eq {packet : List Byte} (h : i.WellFormed) (hp : encode i = packet) : decode packet = .ok i :=
  hp ▸ decode_encode h

end

/-- Settles O2: `decode_encode`, for every command. -/
theorem decodeOfEncodeIsTheCommand : Obligations.DecodeOfEncodeIsTheCommand := fun _ => decode_encode

/-- Settles O1: each of the packets is the encoding of its command, and each command is well-formed. -/
theorem specPacketsDecodeToTheirCommands : Obligations.SpecPacketsDecodeToTheirCommands := by
  and_intros
  all_goals exact decode_of_encode_eq (by decide +kernel) (by decide +kernel)

/-! ### The packets the decoder accepts -/

/-- What the five commands with a parity count decode to when it is illegal (R173 step 3; log 3). -/
def illegalParityCommands (n : Byte) : List Instr :=
  [.genpoly n, .encode n [], .synd n [], .euclid n 0#8 [], .decode n [] []]

/-- Bytes from which an operation's fields can be read as command i, leaving `rest`: the operands of i, or an illegal
parity count, after which nothing is looked at. -/
inductive FieldsOf : Opcode → List Byte → Instr → List Byte → Prop where
  | operands {i : Instr} {rest : List Byte} (h : i.WellFormed) : FieldsOf i.opcode (operandBytes i ++ rest) i rest
  | illegal {i : Instr} {n : Byte} {rest : List Byte} (hn : parityInRange n = false)
    (hi : i ∈ illegalParityCommands n) : FieldsOf i.opcode (n :: rest) i []

/-- The commands with a parity count are read one way: an illegal count ends the reading, and after a legal one the
rest of the format decides. -/
theorem fieldsOf_of_withParity {illegal : Byte → Instr} {k : Byte → List Byte → Option (Instr × List Byte)}
    {op : Opcode} {bs rest : List Byte} {i : Instr} (h : withParity bs illegal k = some (i, rest))
    (hop : ∀ n, (illegal n).opcode = op) (hmem : ∀ n, illegal n ∈ illegalParityCommands n)
    (legal : ∀ n tail, parityInRange n = true → k n tail = some (i, rest) → FieldsOf op (n :: tail) i rest) :
    FieldsOf op bs i rest := by
  obtain ⟨n, tail, rfl, ⟨hn, hk⟩ | ⟨hn, hr⟩⟩ := withParity_eq_some h
  · exact legal n tail hn hk
  · cases hr
    exact hop n ▸ .illegal hn (hmem n)

theorem fieldsOf_of_readFields {op : Opcode} {bs rest : List Byte} {i : Instr}
    (h : readFields op bs = some (i, rest)) : FieldsOf op bs i rest := by
  cases op with
  | init => cases h; exact .operands (i := .init) rfl
  | gfmul =>
    obtain ⟨a, _, rfl, h⟩ := withByte_eq_some h
    obtain ⟨b, _, rfl, h⟩ := withByte_eq_some h
    cases h; exact .operands (i := .gfmul a b) rfl
  | gfinv =>
    obtain ⟨x, _, rfl, h⟩ := withByte_eq_some h
    cases h; exact .operands (i := .gfinv x) rfl
  | gflog =>
    obtain ⟨x, _, rfl, h⟩ := withByte_eq_some h
    cases h; exact .operands (i := .gflog x) rfl
  | gfexp =>
    obtain ⟨e, _, rfl, h⟩ := withByte_eq_some h
    cases h; exact .operands (i := .gfexp e) rfl
  | gfpow111 =>
    obtain ⟨x, _, rfl, h⟩ := withByte_eq_some h
    cases h; exact .operands (i := .gfpow111 x) rfl
  | peval =>
    obtain ⟨x, _, rfl, h⟩ := withByte_eq_some h
    obtain ⟨p, _, rfl, hp, h⟩ := withPoly_eq_some h
    cases h; exact .operands (i := .peval x p) hp
  | pmul =>
    obtain ⟨p, _, rfl, hp, h⟩ := withPoly_eq_some h
    obtain ⟨q, _, rfl, hq, h⟩ := withPoly_eq_some h
    cases h; rw [← List.append_assoc]
    exact .operands (i := .pmul p q) (Bool.and_eq_true_iff.mpr ⟨hp, hq⟩)
  | genpoly =>
    refine fieldsOf_of_withParity h (fun _ => rfl) (by simp [illegalParityCommands]) fun n _ hn h => ?_
    cases h; exact .operands (i := .genpoly n) hn
  | encode =>
    refine fieldsOf_of_withParity h (fun _ => rfl) (by simp [illegalParityCommands]) fun n _ hn h => ?_
    obtain ⟨message, _, rfl, hm, h⟩ := withBytes_eq_some h
    cases h; exact .operands (i := .encode n message) (Bool.and_eq_true_iff.mpr ⟨hn, decide_eq_true hm⟩)
  | synd =>
    refine fieldsOf_of_withParity h (fun _ => rfl) (by simp [illegalParityCommands]) fun n _ hn h => ?_
    obtain ⟨word, _, rfl, hw, h⟩ := withBytes_eq_some h
    cases h; exact .operands (i := .synd n word) (Bool.and_eq_true_iff.mpr ⟨hn, decide_eq_true hw⟩)
  | eraloc =>
    obtain ⟨mask, _, rfl, hm, h⟩ := withBytes_eq_some h
    cases h; exact .operands (i := .eraloc mask) (decide_eq_true hm)
  | euclid =>
    refine fieldsOf_of_withParity h (fun _ => rfl) (by simp [illegalParityCommands]) fun n _ hn h => ?_
    obtain ⟨c, _, rfl, h⟩ := withByte_eq_some h
    obtain ⟨p, _, rfl, hp, h⟩ := withPoly_eq_some h
    cases h; exact .operands (i := .euclid n c p) (Bool.and_eq_true_iff.mpr ⟨hn, hp⟩)
  | finderr =>
    obtain ⟨d, _, rfl, h⟩ := withByte_eq_some h
    obtain ⟨sigma, _, rfl, hs, h⟩ := withPoly_eq_some h
    obtain ⟨omega, _, rfl, ho, h⟩ := withPoly_eq_some h
    cases h; rw [← List.append_assoc]
    exact .operands (i := .finderr d sigma omega) (Bool.and_eq_true_iff.mpr ⟨hs, ho⟩)
  | decode =>
    refine fieldsOf_of_withParity h (fun _ => rfl) (by simp [illegalParityCommands]) fun n _ hn h => ?_
    obtain ⟨received, _, rfl, hr, h⟩ := withBytes_eq_some h
    obtain ⟨mask, _, rfl, hm, h⟩ := withBytes_eq_some h
    cases h; rw [← List.append_assoc]
    exact .operands (i := .decode n received mask)
      (Bool.and_eq_true_iff.mpr ⟨Bool.and_eq_true_iff.mpr ⟨hn, decide_eq_true hr⟩, decide_eq_true hm⟩)

/-- Settles O3: the opcode byte is the command's code, and the bytes after it are its operands or begin with an illegal
parity count. -/
theorem acceptedPacketIsTheEncoding : Obligations.AcceptedPacketIsTheEncoding := by
  intro bs i h
  cases bs with
  | nil => cases h
  | cons b fields =>
    obtain ⟨op, hop, hread⟩ := exists_readFields_of_decode h
    obtain rfl := code_of_opcodeOfByte hop
    cases fieldsOf_of_readFields hread with
    | operands hwf => exact .inl ⟨hwf, by simp [encode]⟩
    | illegal hn hi => exact .inr ⟨_, _, rfl, hn, hi⟩

/-! ### The length of a packet -/

/-- The degree byte of a list that fits counts its coefficients but one (R64). -/
theorem length_eq_degreeByte {p : List Byte} (h : polyFits p = true) :
    p.length = (BitVec.ofNat 8 (p.length - 1)).toNat + 1 := by
  simp only [polyFits, Bool.and_eq_true, decide_eq_true_eq] at h
  rw [BitVec.toNat_ofNat]
  omega

theorem length_polyField (p : List Byte) : (polyField p).length = p.length + 1 := rfl

theorem length_of_wordFits {w : List Byte} (h : wordFits w = true) : w.length = 255 := of_decide_eq_true h

/-- Where two polynomial fields end a packet, the second degree byte stands where the first one's says. -/
theorem degreeByte_of_second_field (pre p q : List Byte) {k : Nat} (hk : k = pre.length + 1 + p.length) :
    (pre ++ (polyField p ++ polyField q)).getD k 0#8 = BitVec.ofNat 8 (q.length - 1) := by
  have hlen : k = (pre ++ polyField p).length := by
    simp only [List.length_append, length_polyField]
    omega
  rw [← List.append_assoc, hlen]
  simp [List.getD, polyField]

theorem length_encode_pmul {p q : List Byte} (h : (Instr.pmul p q).WellFormed) :
    (encode (.pmul p q)).length = packetLength .pmul fun k => (encode (.pmul p q)).getD k 0#8 := by
  obtain ⟨hp, hq⟩ := Bool.and_eq_true_iff.mp h
  have hp := length_eq_degreeByte hp
  have hq := length_eq_degreeByte hq
  have first : (encode (.pmul p q)).getD 1 0#8 = BitVec.ofNat 8 (p.length - 1) := rfl
  have second : (encode (.pmul p q)).getD (2 + p.length) 0#8 = BitVec.ofNat 8 (q.length - 1) :=
    degreeByte_of_second_field [Opcode.code .pmul] p q rfl
  simp only [packetLength, first, show 3 + (BitVec.ofNat 8 (p.length - 1)).toNat = 2 + p.length by omega, second]
  simp only [encode, operandBytes, List.length_cons, List.length_append, length_polyField]
  omega

theorem length_encode_finderr {d : Byte} {sigma omega : List Byte} (h : (Instr.finderr d sigma omega).WellFormed) :
    (encode (.finderr d sigma omega)).length
      = packetLength .finderr fun k => (encode (.finderr d sigma omega)).getD k 0#8 := by
  obtain ⟨hs, ho⟩ := Bool.and_eq_true_iff.mp h
  have hs := length_eq_degreeByte hs
  have ho := length_eq_degreeByte ho
  have first : (encode (.finderr d sigma omega)).getD 2 0#8 = BitVec.ofNat 8 (sigma.length - 1) := rfl
  have second : (encode (.finderr d sigma omega)).getD (3 + sigma.length) 0#8 = BitVec.ofNat 8 (omega.length - 1) :=
    degreeByte_of_second_field [Opcode.code .finderr, d] sigma omega rfl
  simp only [packetLength, first, show 4 + (BitVec.ofNat 8 (sigma.length - 1)).toNat = 3 + sigma.length by omega,
    second]
  simp only [encode, operandBytes, List.length_cons, List.length_append, length_polyField]
  omega

/-- Settles O4: field by field, the degree bytes being those that the packet carries. -/
theorem packetLengthsOfTheFormats : Obligations.PacketLengthsOfTheFormats := by
  intro i h
  cases i with
  | init | gfmul | gfinv | gflog | gfexp | gfpow111 | genpoly => rfl
  | peval x p =>
    have hp := length_eq_degreeByte h
    show p.length + 1 + 1 + 1 = 4 + (BitVec.ofNat 8 (p.length - 1)).toNat
    omega
  | pmul p q => exact length_encode_pmul h
  | encode n message =>
    obtain ⟨hn, hm⟩ := Bool.and_eq_true_iff.mp h
    have hm : message.length = 255 - n.toNat := of_decide_eq_true hm
    have hn := n.isLt
    show message.length + 1 + 1 = 257 - n.toNat
    omega
  | synd n word =>
    obtain ⟨-, hw⟩ := Bool.and_eq_true_iff.mp h
    exact congrArg (· + 2) (length_of_wordFits hw)
  | eraloc mask => exact congrArg (· + 1) (length_of_wordFits h)
  | euclid n c p =>
    obtain ⟨-, hp⟩ := Bool.and_eq_true_iff.mp h
    have hp := length_eq_degreeByte hp
    show p.length + 1 + 1 + 1 + 1 = 5 + (BitVec.ofNat 8 (p.length - 1)).toNat
    omega
  | finderr d sigma omega => exact length_encode_finderr h
  | decode n received mask =>
    obtain ⟨hnr, hm⟩ := Bool.and_eq_true_iff.mp h
    obtain ⟨-, hr⟩ := Bool.and_eq_true_iff.mp hnr
    simp [encode, operandBytes, packetLength, Instr.opcode, length_of_wordFits hr, length_of_wordFits hm]

end Sys2Proof

/-! PROOFS. What the core answers to a packet that it cannot execute (spec 30_encoding.md R65, R67, R71; 60_exceptions.md
R173), and the steps that execute nothing (30_encoding.md R62, 60_exceptions.md R183). -/

namespace Sys2Proof.Machine

/-! ### The first check that fails -/

section
variable {s : State} {b n : Byte} {fields : List Byte} {op : Opcode} {i : Instr}

theorem initStatus_eq_none (h : op = .init ↔ s.initd = false) : initStatus op s = none := by
  cases hs : s.initd with
  | false =>
    obtain rfl := h.mpr hs
    simp only [initStatus, hs]
  | true => exact initStatus_of_initd hs fun hop => Bool.noConfusion (hs.symm.trans (h.mp hop))

theorem refusePacket_wrongLength {st : Status} (h : initStatus op s = some st) :
    refusePacket (.wrongLength op) s = raise st s := by
  simp only [refusePacket, guardInit, h]

theorem refusePacket_wrongLength_of_passed (h : initStatus op s = none) :
    refusePacket (.wrongLength op) s = raise .errLength s := by
  simp only [refusePacket, guardInit, h]

theorem packetAnswers_of_reserved (s : State) (fields : List Byte) (hop : opcodeOfByte b = none) :
    PacketAnswers s b fields .errOpcode [] :=
  packetAnswers_of_decode_error (decode_of_reserved hop) fun _ _ => rfl

theorem guardParity_of_illegal (k : Result) (h : parityInRange n = false) :
    guardParity n s k = raise .errParam s := by
  simp only [guardParity, parityLegal_eq, h, Bool.false_eq_true, if_false]

/-- A command that is read from an illegal parity count and whose meaning checks that count first is refused. -/
theorem packetAnswers_of_illegal_parity {k : State → Result} (hs : s.initd = true) (hn : parityInRange n = false)
    (hop : op ≠ .init) (hread : readFields op (n :: fields) = some (i, []))
    (hexec : ∀ s', exec i s' = guardInit op s' (guardParity n s' (k s'))) :
    PacketAnswers s op.code (n :: fields) .errParam [] := by
  refine packetAnswers_of_decode_ok (decode_of_readFields (opcodeOfByte_code op) hread) fun s' hi _ => ?_
  rw [hexec, guardInit_of_initd _ (hi.trans hs) hop, guardParity_of_illegal _ hn]
  rfl

end

/-- The bytes that stand for no operation are the reserved ones of R67. -/
theorem opcodeOfByte_eq_none_iff : ∀ b : Byte, opcodeOfByte b = none ↔
    b.toNat = 0x06 ∨ b.toNat = 0x07 ∨ (0x0A ≤ b.toNat ∧ b.toNat ≤ 0x0F) ∨ 0x17 ≤ b.toNat := by decide +kernel

/-- Settles O5: the opcode table has an operation for exactly the bytes that are not reserved, and a packet whose opcode
is not in the table is refused before anything else is looked at. -/
theorem reservedOpcodesAreRefused : Obligations.ReservedOpcodesAreRefused := by
  intro b
  refine ⟨fun h s fields => packetAnswers_of_reserved s fields ((opcodeOfByte_eq_none_iff b).mpr h), fun h => ?_⟩
  obtain ⟨op, hop⟩ := Option.ne_none_iff_exists'.mp (mt (opcodeOfByte_eq_none_iff b).mp h)
  exact ⟨op, code_of_opcodeOfByte hop, hop⟩

/-- Settles O7: such a packet has a reserved opcode or is of a wrong length, and before the length is reported the
initialisation check refuses or passes. -/
theorem undecodablePacketsFollowTheCheckOrder : Obligations.UndecodablePacketsFollowTheCheckOrder := by
  intro s b fields hd
  have wrongLength {op : Opcode} (hop : opcodeOfByte b = some op) :
      Sys2Proof.decode (b :: fields) = .error (.wrongLength op) :=
    decode_of_wrongLength hop fun i hr => hd i (decode_of_readFields hop hr)
  refine ⟨packetAnswers_of_reserved s fields, fun op hop hne hs => ?_, fun hop hs => ?_, fun op hop hiff => ?_⟩
  · exact packetAnswers_of_decode_error (wrongLength hop) fun s' hi =>
      refusePacket_wrongLength (initStatus_of_not_initd (hi.trans hs) hne)
  · exact packetAnswers_of_decode_error (wrongLength hop) fun s' hi =>
      refusePacket_wrongLength (by simp only [initStatus, hi.trans hs])
  · exact packetAnswers_of_decode_error (wrongLength hop) fun s' hi =>
      refusePacket_wrongLength_of_passed (initStatus_eq_none (hi ▸ hiff))

/-- Settles O21: each of the five commands is read from the illegal count alone, and its meaning refuses that count. -/
theorem illegalParityCountIsRefusedAtOnce : Obligations.IllegalParityCountIsRefusedAtOnce := by
  intro s op n rest hs hop hn
  have hn : parityInRange n = false := by rcases hn with rfl | rfl <;> rfl
  simp only [List.mem_cons, List.not_mem_nil, or_false] at hop
  obtain rfl | rfl | rfl | rfl | rfl := hop
  all_goals exact packetAnswers_of_illegal_parity hs hn Opcode.noConfusion (withParity_of_illegal hn _ _) fun _ => rfl

/-! ### The steps that execute nothing -/

theorem step_of_idle {s : State} (hh : s.host = []) : step s = .next s := by
  simp only [step, nextEvent, hh]

/-- A command that meets a held response waits (R62, U11). -/
theorem step_of_held {s : State} {op : Byte} {fields : List Byte} {rest : List HostEvent} {r : Response}
    (hh : s.host = .command op fields :: rest) (hr : s.rsp = some r) : step s = .next s := by
  simp only [step, nextEvent, hh, takeCommand, hr]

theorem step_of_takeResponse {s : State} {rest : List HostEvent} (hh : s.host = .takeResponse :: rest) :
    step s = .next { s with rsp := none, host := rest } := by
  simp only [step, nextEvent, hh, acceptResponse]

/-- Settles O8: one form of a step for each of the three events. -/
theorem idleAndHeldCoreIsUnchanged : Obligations.IdleAndHeldCoreIsUnchanged :=
  fun _ => ⟨step_of_idle, fun _ _ _ _ => step_of_held, fun _ => step_of_takeResponse⟩

end Sys2Proof.Machine

/-! PROOFS. What each command answers once its checks pass, and the length of that response (spec 30_encoding.md R66,
60_exceptions.md R171): the length of a polynomial field is given by its degree, so that the degrees of the generator,
of the erasure locator and of EUCLID's two polynomials are what has to be found. -/

namespace Sys2Proof.Machine

/-! ### What a command answers once its checks pass -/

section
variable {s : State} {n : Byte}

theorem exec_gfmul_of_initd (hs : s.initd = true) (a b : Byte) :
    exec (.gfmul a b) s = respond .ok [s.field.mul a b] s := guardInit_of_initd _ hs Opcode.noConfusion

theorem exec_gfinv_of_initd (hs : s.initd = true) (x : Byte) :
    exec (.gfinv x) s = respond .ok [s.field.inv x] s := guardInit_of_initd _ hs Opcode.noConfusion

theorem exec_gflog_of_initd (hs : s.initd = true) (x : Byte) :
    exec (.gflog x) s = respond .ok [byteOf (logA s.field.mul x)] s := guardInit_of_initd _ hs Opcode.noConfusion

theorem exec_gfexp_of_initd (hs : s.initd = true) (e : Byte) :
    exec (.gfexp e) s = respond .ok [expA s.field.mul e.toNat] s := guardInit_of_initd _ hs Opcode.noConfusion

theorem exec_gfpow111_of_initd (hs : s.initd = true) (x : Byte) :
    exec (.gfpow111 x) s = respond .ok [pow111 s.field.mul x] s := guardInit_of_initd _ hs Opcode.noConfusion

theorem exec_peval_of_initd (hs : s.initd = true) (x : Byte) (p : List Byte) :
    exec (.peval x p) s = respond .ok [evaluate s.field p x] s := guardInit_of_initd _ hs Opcode.noConfusion

theorem exec_pmul_of_fits (hs : s.initd = true) {p q : List Byte} (h : deg p + deg q ≤ 255) :
    exec (.pmul p q) s = respond .ok (normalField (multiply s.field p q)) s :=
  (guardInit_of_initd _ hs Opcode.noConfusion).trans (if_neg (Nat.not_lt.mpr h))

theorem exec_pmul_of_too_long (hs : s.initd = true) {p q : List Byte} (h : deg p + deg q > 255) :
    exec (.pmul p q) s = respond .errParam [] s :=
  (guardInit_of_initd _ hs Opcode.noConfusion).trans (if_pos h)

theorem exec_genpoly_of_legal (hs : s.initd = true) (hn : parityInRange n = true) :
    exec (.genpoly n) s = respond .ok (normalField (buildGenerator s.field n.toNat)) s :=
  (guardInit_of_initd _ hs Opcode.noConfusion).trans (guardParity_of_legal _ hn)

theorem exec_encode_of_legal (hs : s.initd = true) (hn : parityInRange n = true) {message : List Byte}
    (hm : message.length = 255 - n.toNat) :
    exec (.encode n message) s = respond .ok (rsEncode s.field message n.toNat) s :=
  (guardInit_of_initd _ hs Opcode.noConfusion).trans
    ((guardParity_of_legal _ hn).trans (guardLength_of_eq _ hm))

theorem exec_synd_of_legal (hs : s.initd = true) (hn : parityInRange n = true) {word : List Byte}
    (hw : word.length = 255) : exec (.synd n word) s = respond .ok (syndromes s.field word n.toNat) s :=
  (guardInit_of_initd _ hs Opcode.noConfusion).trans
    ((guardParity_of_legal _ hn).trans (guardLength_of_eq _ hw))

theorem exec_eraloc_of_legal (hs : s.initd = true) {mask : List Byte} (hm : mask.length = 255) :
    exec (.eraloc mask) s = respond .ok
      (byteOf (erasureLocator s.field mask).2 :: normalField (erasureLocator s.field mask).1) s :=
  (guardInit_of_initd _ hs Opcode.noConfusion).trans (guardLength_of_eq _ hm)

theorem exec_euclid_of_le (hs : s.initd = true) (hn : parityInRange n = true) {c : Byte} (hc : c.toNat ≤ n.toNat)
    (p : List Byte) :
    exec (.euclid n c p) s = respond .ok
      (normalField (euclid s.field p n.toNat c.toNat).r ++ normalField (euclid s.field p n.toNat c.toNat).t) s :=
  (guardInit_of_initd _ hs Opcode.noConfusion).trans
    ((guardParity_of_legal _ hn).trans (if_neg (Nat.not_lt.mpr hc)))

theorem exec_euclid_of_gt (hs : s.initd = true) (hn : parityInRange n = true) {c : Byte} (hc : c.toNat > n.toNat)
    (p : List Byte) : exec (.euclid n c p) s = respond .uncorrectable [] s :=
  (guardInit_of_initd _ hs Opcode.noConfusion).trans ((guardParity_of_legal _ hn).trans (if_pos hc))

theorem exec_finderr_of_some (hs : s.initd = true) {d : Byte} {sigma omega : List Byte} {found : List (Nat × Byte)}
    (hf : findErrors s.field sigma omega d.toNat = some found) :
    exec (.finderr d sigma omega) s =
      respond .ok (byteOf found.length :: found.flatMap fun pv => [byteOf pv.1, pv.2]) s :=
  (guardInit_of_initd _ hs Opcode.noConfusion).trans (by simp only [hf])

theorem exec_finderr_of_none (hs : s.initd = true) {d : Byte} {sigma omega : List Byte}
    (hf : findErrors s.field sigma omega d.toNat = none) :
    exec (.finderr d sigma omega) s = respond .uncorrectable [] s :=
  (guardInit_of_initd _ hs Opcode.noConfusion).trans (by simp only [hf])

/-- Past the checks of `DECODE` its answer is that of the decoding algorithm (46_decode.md R161). -/
theorem exec_decode_of_some (hs : s.initd = true) (hn : parityInRange n = true) {received mask out : List Byte}
    {count : Nat} (hr : received.length = 255) (hm : mask.length = 255)
    (hd : rsDecode s.field received mask n.toNat = some (out, count)) :
    exec (.decode n received mask) s = respond .ok (byteOf count :: out) s :=
  (guardInit_of_initd _ hs Opcode.noConfusion).trans ((guardParity_of_legal _ hn).trans
    ((guardLength_of_eq _ hr).trans ((guardLength_of_eq _ hm).trans (by simp only [hd]))))

theorem exec_decode_of_none (hs : s.initd = true) (hn : parityInRange n = true) {received mask : List Byte}
    (hr : received.length = 255) (hm : mask.length = 255)
    (hd : rsDecode s.field received mask n.toNat = none) :
    exec (.decode n received mask) s = respond .uncorrectable received s :=
  (guardInit_of_initd _ hs Opcode.noConfusion).trans ((guardParity_of_legal _ hn).trans
    ((guardLength_of_eq _ hr).trans ((guardLength_of_eq _ hm).trans (by simp only [hd]))))

end

/-! ### Lengths that the loops keep -/

theorem length_foldl_of_length_eq {α : Type} {f : List Byte → α → List Byte}
    (h : ∀ w a, (f w a).length = w.length) (l : List α) (w : List Byte) : (l.foldl f w).length = w.length := by
  induction l generalizing w with
  | nil => rfl
  | cons a l ih => rw [List.foldl_cons, ih, h]

theorem length_divideStep (F : Field) (g : List Byte) (n : Nat) (w : List Byte) (j : Nat) :
    (divideStep F g n w j).length = w.length := by
  simp only [divideStep]
  split
  · rfl
  · exact length_foldl_of_length_eq (fun w k => length_xorAt w _ _) _ w

/-- The parity is n bytes long, and the message follows it (42_encoder.md R122). -/
theorem length_rsEncode (F : Field) (message : List Byte) (n : Nat) :
    (rsEncode F message n).length = n + message.length := by
  simp only [rsEncode, List.length_append, List.length_take, length_zeros,
    length_foldl_of_length_eq (length_divideStep F _ n)]
  omega

theorem length_syndromes (F : Field) (word : List Byte) (n : Nat) : (syndromes F word n).length = n := by
  have loop : ∀ root, (syndromeLoop F word n root).length = n := by
    induction n with
    | zero => exact fun _ => rfl
    | succ n ih => exact fun root => congrArg (· + 1) (ih _)
  exact loop F.a111

theorem length_of_findErrors {F : Field} {sigma omega : List Byte} {declared : Nat} {found : List (Nat × Byte)}
    (h : findErrors F sigma omega declared = some found) : found.length = declared := by
  simp only [findErrors] at h
  split at h
  · cases h
  · next hl => cases h; exact not_not.mp hl

theorem length_of_rsDecode {F : Field} {received mask out : List Byte} {n count : Nat}
    (h : rsDecode F received mask n = some (out, count)) : out.length = received.length := by
  simp only [rsDecode] at h
  split at h
  · cases h
  · split at h
    · cases h
    · cases h
      exact length_foldl_of_length_eq (fun w pv => length_xorAt w _ _) _ received

/-! ### Polynomial fields -/

/-- The field of a polynomial is its degree byte and its normal form (30_encoding.md R64). -/
theorem normalField_eq (p : List Byte) : normalField p = byteOf (deg p) :: trim p := by
  simp only [normalField, polyField, length_trim, Nat.add_sub_cancel, byteOf]

theorem length_normalField (p : List Byte) : (normalField p).length = deg p + 2 := by
  rw [normalField_eq, List.length_cons, length_trim]

theorem deg_le_of_coef {p : List Byte} {d : Nat} (h : ∀ j, d < j → coef p j = 0#8) : deg p ≤ d := by
  by_contra hd
  exact lead_ne_zero (p := p) (by omega) (h _ (by omega))

/-- The product's degree is at most the sum of the factors' degrees (41_poly.md R112). -/
theorem deg_multiply_le (F : Field) (p q : List Byte) : deg (multiply F p q) ≤ deg p + deg q := by
  rw [multiply, deg_trim]
  refine deg_le_of_coef fun j hj => coef_of_length_le ?_
  rw [(coef_convolve F (trim_ne_nil q) j).1, length_trim, length_trim]
  omega

/-! ### Products of monic factors: the generator and the erasure locator -/

/-- A sequence of d + 1 coefficients whose last one is 0x01. -/
structure MonicOfDegree (g : List Byte) (d : Nat) : Prop where
  length : g.length = d + 1
  top : coef g d = 0x01#8

theorem MonicOfDegree.deg_eq {g : List Byte} {d : Nat} (h : MonicOfDegree g d) : deg g = d :=
  deg_eq_of_coef (by rw [h.top]; decide) fun j hj => coef_of_length_le (by rw [h.length]; omega)

theorem monicOfDegree_one : MonicOfDegree [0x01#8] 0 := ⟨rfl, rfl⟩

/-- x^n, as `euclid` starts with it (44_euclid.md R141). -/
theorem monicOfDegree_zeros_append_one (n : Nat) : MonicOfDegree (zeros n ++ [0x01#8]) n :=
  ⟨by simp, by simp [coef, List.getD]⟩

/-- Multiplying by x xor root keeps a polynomial monic (42_encoder.md R120, 41_poly.md R114). -/
theorem MonicOfDegree.mulByRoot {g : List Byte} {d : Nat} (h : MonicOfDegree g d) (F : Field) (root : Byte) :
    MonicOfDegree (mulByRoot F g root) (d + 1) where
  length := by rw [length_mulByRoot, h.length]
  top := by
    rw [coef_mulByRoot, if_neg (Nat.succ_ne_zero d), if_neg (by rw [h.length]; omega), Nat.add_sub_cancel, h.top]
    rfl

theorem MonicOfDegree.generatorLoop {g : List Byte} {d : Nat} (h : MonicOfDegree g d) (F : Field) (count : Nat)
    (root : Byte) : MonicOfDegree (generatorLoop F count root g) (d + count) := by
  induction count generalizing g d root with
  | zero => exact h
  | succ count ih =>
    have := ih (h.mulByRoot F (F.mul root Config.primitive)) (F.mul root Config.primitive)
    rwa [show d + 1 + count = d + (count + 1) by omega] at this

theorem monicOfDegree_buildGenerator (F : Field) (n : Nat) : MonicOfDegree (buildGenerator F n) n := by
  have := monicOfDegree_one.generatorLoop F n F.a111
  rwa [Nat.zero_add] at this

/-- The coefficients at the indices of a list are its entries. -/
theorem map_coef_range (p : List Byte) : (List.range p.length).map (coef p) = p := by
  refine List.ext_getElem (by simp) fun j _ hj => ?_
  simp [coef, List.getD, hj]

/-- What the loop of `erasure_locator` has after the positions below k (43_syndrome_erasure.md R132). -/
def erasureRounds (F : Field) (mask : List Byte) (k : Nat) : List Byte × Nat :=
  (List.range k).foldl (erasureRound F mask) ([0x01#8], 0)

theorem erasureLocator_eq_rounds (F : Field) (mask : List Byte) : erasureLocator F mask = erasureRounds F mask 255 := rfl

theorem erasureRounds_succ (F : Field) (mask : List Byte) (k : Nat) :
    erasureRounds F mask (k + 1) = erasureRound F mask (erasureRounds F mask k) k := by
  simp only [erasureRounds, List.range_succ, List.foldl_append, List.foldl_cons, List.foldl_nil]

/-- One factor is multiplied in for each erasure that is counted. -/
theorem monicOfDegree_erasureRounds (F : Field) (mask : List Byte) (k : Nat) :
    MonicOfDegree (erasureRounds F mask k).1 (erasureRounds F mask k).2 := by
  induction k with
  | zero => exact monicOfDegree_one
  | succ k ih =>
    rw [erasureRounds_succ, erasureRound]
    split
    · exact ih.mulByRoot F _
    · exact ih

theorem erasureRounds_count (F : Field) (mask : List Byte) (k : Nat) :
    (erasureRounds F mask k).2 = ((List.range k).map (coef mask)).countP flagged := by
  induction k with
  | zero => rfl
  | succ k ih =>
    rw [erasureRounds_succ, erasureRound, List.range_succ, List.map_append, List.countP_append, ← ih, List.map_singleton,
      List.countP_singleton]
    split <;> rfl

theorem monicOfDegree_erasureLocator (F : Field) (mask : List Byte) :
    MonicOfDegree (erasureLocator F mask).1 (erasureLocator F mask).2 := monicOfDegree_erasureRounds F mask 255

theorem erasureLocator_count {F : Field} {mask : List Byte} (h : mask.length = 255) :
    (erasureLocator F mask).2 = erasureCount mask := by
  rw [erasureLocator_eq_rounds, erasureRounds_count, ← h, map_coef_range, erasureCount]

/-! ### The degrees in EUCLID -/

theorem mulBitwise_zero_right (a : Byte) : mulBitwise a 0x00#8 = 0x00#8 := by
  have h : ∀ (l : List Nat) (t : Byte), (l.foldl (mulRound 0x00#8) (0x00#8, t)).1 = 0x00#8 := by
    intro l
    induction l with
    | nil => exact fun _ => rfl
    | cons i l ih =>
      intro t
      have hr : mulRound 0x00#8 (0x00#8, t) i = (0x00#8, xtime t) := by simp [mulRound]
      rw [List.foldl_cons, hr, ih]
  exact h _ a

theorem mulBitwise_one_left : ∀ b : Byte, mulBitwise 0x01#8 b = b := by decide +kernel

theorem mulBitwise_invChain : ∀ x : Byte, x ≠ 0x00#8 → mulBitwise (invChain mulBitwise x) x = 0x01#8 := by
  decide +kernel

/-- Above both degrees a scaled subtraction has no coefficient (44_euclid.md R141). -/
theorem deg_subtractScaled_le (u : List Byte) (c : Byte) (k : Nat) (v : List Byte) :
    deg (subtractScaled builtField u c k v) ≤ max (deg u) (deg v + k) := by
  refine deg_le_of_coef fun j hj => ?_
  by_cases hl : j < max u.length (v.length + k)
  · rw [coef_subtractScaled _ _ _ _ _ hl, coef_of_deg_lt (p := u) (by omega), if_neg (by omega),
      coef_of_deg_lt (p := v) (by omega)]
    show 0x00#8 ^^^ mulBitwise c 0x00#8 = 0x00#8
    rw [mulBitwise_zero_right]
    rfl
  · exact coef_of_length_le (by rw [length_subtractScaled]; omega)

theorem deg_reducePair_r_le {p o : EuclidPair} (h : deg o.r ≤ deg p.r) :
    deg (reducePair builtField p o).r ≤ deg p.r := by
  have := deg_subtractScaled_le p.r (mulBitwise (lead p.r) (invChain mulBitwise (lead o.r))) (deg p.r - deg o.r) o.r
  show deg (trim _) ≤ _
  rw [deg_trim]
  exact this.trans (by omega)

theorem deg_reducePair_t_le (p o : EuclidPair) :
    deg (reducePair builtField p o).t ≤ max (deg p.t) (deg o.t + (deg p.r - deg o.r)) := by
  show deg (trim _) ≤ _
  rw [deg_trim]
  exact deg_subtractScaled_le p.t _ _ o.t

/-- Where the reduced remainder is monic, the subtraction clears its leading coefficient. -/
theorem deg_reducePair_r_lt {p o : EuclidPair} {d : Nat} (hp : MonicOfDegree p.r d) (ho : deg o.r ≠ 0)
    (h : deg o.r ≤ d) : deg (reducePair builtField p o).r < d := by
  have hd := hp.deg_eq
  have cleared : coef (reducePair builtField p o).r d = 0x00#8 := by
    show coef (trim (subtractScaled builtField p.r (mulBitwise (lead p.r) (invChain mulBitwise (lead o.r)))
      (deg p.r - deg o.r) o.r)) d = 0x00#8
    rw [coef_trim, coef_subtractScaled _ _ _ _ _ (by rw [hp.length]; omega), if_neg (by omega), hp.top,
      show d - (deg p.r - deg o.r) = deg o.r by omega, lead, hd, hp.top, mulBitwise_one_left]
    show 0x01#8 ^^^ mulBitwise (invChain mulBitwise (lead o.r)) (lead o.r) = 0x00#8
    rw [mulBitwise_invChain _ (lead_ne_zero ho)]
    rfl
  refine Nat.lt_of_le_of_ne (hd ▸ deg_reducePair_r_le (hd.symm ▸ h)) fun he => ?_
  exact lead_ne_zero (p := (reducePair builtField p o).r) (by omega) (by rw [lead, he, cleared])

/-- The invariant of the loop of `euclid`: each cofactor's degree and the other pair's remainder's add up to at most
n. -/
structure EuclidDegrees (n : Nat) (p o : EuclidPair) : Prop where
  left : deg p.t + deg o.r ≤ n
  right : deg o.t + deg p.r ≤ n

theorem EuclidDegrees.swap {n : Nat} {p o : EuclidPair} (h : EuclidDegrees n p o) : EuclidDegrees n o p :=
  ⟨h.right, h.left⟩

theorem EuclidDegrees.reducePair {n : Nat} {p o : EuclidPair} (h : EuclidDegrees n p o) (hle : deg o.r ≤ deg p.r) :
    EuclidDegrees n (reducePair builtField p o) o := by
  obtain ⟨hl, hr⟩ := h
  have ht := deg_reducePair_t_le p o
  have hr' := deg_reducePair_r_le hle
  exact ⟨by omega, by omega⟩

section
variable {F : Field} {bound fuel : Nat} {sel other : EuclidPair}

/-- A round in which the pairs are not exchanged. -/
theorem euclidLoop_succ (h : deg other.r ≤ deg sel.r) :
    euclidLoop F bound (fuel + 1) sel other =
      if deg (reducePair F sel other).r ≤ bound then reducePair F sel other
      else euclidLoop F bound fuel (reducePair F sel other) other := by
  simp only [euclidLoop, if_neg (Nat.not_lt.mpr h)]

/-- The flip. -/
theorem euclidLoop_succ_swap (h : deg sel.r < deg other.r) :
    euclidLoop F bound (fuel + 1) sel other = euclidLoop F bound (fuel + 1) other sel := by
  simp only [euclidLoop, if_pos h, if_neg (Nat.not_lt.mpr (Nat.le_of_lt h))]

end

/-- What the loop answers keeps the degrees of its start: in every round, a remainder's degree does not rise. -/
theorem euclidLoop_degrees {n bound : Nat} (fuel : Nat) {sel other : EuclidPair} (h : EuclidDegrees n sel other)
    (hs : deg sel.r < n) (ho : deg other.r < n) :
    deg (euclidLoop builtField bound fuel sel other).r < n ∧ deg (euclidLoop builtField bound fuel sel other).t ≤ n := by
  induction fuel generalizing sel other with
  | zero => exact ⟨hs, (Nat.le_add_right _ _).trans h.left⟩
  | succ fuel ih =>
    have ordered {p o : EuclidPair} (h : EuclidDegrees n p o) (hp : deg p.r < n) (ho : deg o.r < n)
        (hle : deg o.r ≤ deg p.r) :
        deg (euclidLoop builtField bound (fuel + 1) p o).r < n ∧
          deg (euclidLoop builtField bound (fuel + 1) p o).t ≤ n := by
      have h' := h.reducePair hle
      have hp' := (deg_reducePair_r_le hle).trans_lt hp
      rw [euclidLoop_succ hle]
      split
      · exact ⟨hp', (Nat.le_add_right _ _).trans h'.left⟩
      · exact ih h' hp' ho
    by_cases hlt : deg sel.r < deg other.r
    · rw [euclidLoop_succ_swap hlt]
      exact ordered h.swap ho hs (Nat.le_of_lt hlt)
    · exact ordered h hs ho (Nat.not_lt.mp hlt)

theorem deg_take_lt (p : List Byte) {n : Nat} (hn : 1 ≤ n) : deg (p.take n) < n := by
  have : deg (p.take n) ≤ n - 1 := deg_le_of_coef fun j hj => by rw [coef_take, if_neg (by omega)]
  omega

/-- The evaluator's degree is below n, and the locator's is at most n (44_euclid.md R141, R142): the first round, of
x^n, lowers its degree, and the loop keeps both bounds. -/
theorem euclid_degrees (product : List Byte) {n : Nat} (hn : 1 ≤ n) (s : Nat) :
    deg (euclid builtField product n s).r < n ∧ deg (euclid builtField product n s).t ≤ n := by
  have hx := monicOfDegree_zeros_append_one n
  have hP : deg (trim (product.take n)) < n := by
    rw [deg_trim]
    exact deg_take_lt product hn
  simp only [euclid]
  split
  · exact ⟨hP, Nat.zero_le n⟩
  · next hbound =>
    have start : EuclidDegrees n ⟨zeros n ++ [0x01#8], [0x00#8]⟩ ⟨trim (product.take n), [0x01#8]⟩ :=
      ⟨(Nat.zero_add _).trans_le hP.le, by rw [hx.deg_eq]; exact (Nat.zero_add n).le⟩
    have hle : deg (trim (product.take n)) ≤ deg (zeros n ++ [0x01#8]) := hP.le.trans hx.deg_eq.ge
    have first := start.reducePair hle
    have lower : deg (reducePair builtField ⟨zeros n ++ [0x01#8], [0x00#8]⟩ ⟨trim (product.take n), [0x01#8]⟩).r < n :=
      deg_reducePair_r_lt hx (fun h => hbound (h.le.trans (Nat.zero_le _))) hP.le
    rw [show 2 * n = (2 * n - 1) + 1 by omega, euclidLoop_succ hle]
    split
    · exact ⟨lower, (Nat.le_add_right _ _).trans first.left⟩
    · exact euclidLoop_degrees _ first lower hP

/-! ### The length of every response -/

theorem length_bytes (r : Response) : r.bytes.length = r.payload.length + 1 := rfl

/-- The response in the state that `respond` leaves is the one it was given. -/
theorem eq_of_respond {s t : State} {st : Status} {payload : List Byte} {res : Result} {r : Response}
    (he : res = respond st payload s) (hexec : res = .next t) (hr : t.rsp = some r) : r = ⟨st, payload⟩ := by
  cases he.symm.trans hexec
  exact (Option.some.inj hr).symm

section
variable {s t : State} {r : Response} {n : Byte}

theorem responseLength_pmul {p q : List Byte} (hs : s.initd = true) (hexec : exec (.pmul p q) s = .next t)
    (hr : t.rsp = some r) :
    if deg p + deg q > 255 then r.status = .errParam ∧ r.bytes.length = 1
    else r.status = .ok ∧ ∃ d, d ≤ 255 ∧ r.payload.head? = some (byteOf d) ∧ r.bytes.length = 1 + (d + 2) := by
  split
  · next h =>
    obtain rfl := eq_of_respond (exec_pmul_of_too_long hs h) hexec hr
    exact ⟨rfl, rfl⟩
  · next h =>
    obtain rfl := eq_of_respond (exec_pmul_of_fits hs (Nat.not_lt.mp h)) hexec hr
    have hd := deg_multiply_le s.field p q
    refine ⟨rfl, deg (multiply s.field p q), by omega, by rw [normalField_eq]; rfl, ?_⟩
    rw [length_bytes, length_normalField, Nat.add_comm]

theorem responseLength_euclid {c : Byte} {p : List Byte} (hb : TablesBuilt s) (hn : parityInRange n = true)
    (hexec : exec (.euclid n c p) s = .next t) (hr : t.rsp = some r) :
    if c.toNat > n.toNat then r.status = .uncorrectable ∧ r.bytes.length = 1
    else r.status = .ok ∧ ∃ dO dL, dO ≤ 253 ∧ dL ≤ 254 ∧ r.payload.head? = some (byteOf dO) ∧
      r.payload[dO + 2]? = some (byteOf dL) ∧ r.bytes.length = 1 + (dO + 2) + (dL + 2) := by
  split
  · next h =>
    obtain rfl := eq_of_respond (exec_euclid_of_gt hb.initd hn h p) hexec hr
    exact ⟨rfl, rfl⟩
  · next h =>
    obtain rfl := eq_of_respond (exec_euclid_of_le hb.initd hn (Nat.not_lt.mp h) p) hexec hr
    obtain ⟨hlo, hhi⟩ : 1 ≤ n.toNat ∧ n.toNat ≤ 254 := by
      simpa only [parityInRange, Bool.and_eq_true, decide_eq_true_eq] using hn
    obtain ⟨hO, hL⟩ := euclid_degrees p hlo c.toNat
    rw [field_of_tablesBuilt hb]
    generalize euclid builtField p n.toNat c.toNat = e at hO hL
    refine ⟨rfl, deg e.r, deg e.t, by omega, by omega, by rw [normalField_eq]; rfl, ?_, ?_⟩
    · rw [← length_normalField, List.getElem?_append_right (Nat.le_refl _), Nat.sub_self, normalField_eq]
      rfl
    · rw [length_bytes, List.length_append, length_normalField, length_normalField]
      omega

theorem responseLength_finderr {d : Byte} {sigma omega : List Byte} (hs : s.initd = true)
    (hexec : exec (.finderr d sigma omega) s = .next t) (hr : t.rsp = some r) :
    (r.status = .ok ∧ r.bytes.length = 2 + 2 * d.toNat) ∨ (r.status = .uncorrectable ∧ r.bytes.length = 1) := by
  cases hf : findErrors s.field sigma omega d.toNat with
  | none =>
    obtain rfl := eq_of_respond (exec_finderr_of_none hs hf) hexec hr
    exact .inr ⟨rfl, rfl⟩
  | some found =>
    obtain rfl := eq_of_respond (exec_finderr_of_some hs hf) hexec hr
    have pairs : (found.flatMap fun pv => [byteOf pv.1, pv.2]).length = 2 * d.toNat := by
      simp [List.length_flatMap, length_of_findErrors hf, Nat.mul_comm]
    refine .inl ⟨rfl, ?_⟩
    rw [length_bytes, List.length_cons, pairs]
    omega

theorem responseLength_decode {received mask : List Byte} (hs : s.initd = true)
    (hwf : (Instr.decode n received mask).WellFormed) (hexec : exec (.decode n received mask) s = .next t)
    (hr : t.rsp = some r) :
    (r.status = .ok ∧ r.bytes.length = 257) ∨ (r.status = .uncorrectable ∧ r.bytes.length = 256) := by
  obtain ⟨hnr, hm⟩ := Bool.and_eq_true_iff.mp hwf
  obtain ⟨hn, hw⟩ := Bool.and_eq_true_iff.mp hnr
  have hw := length_of_wordFits hw
  have hm := length_of_wordFits hm
  cases hd : rsDecode s.field received mask n.toNat with
  | none =>
    obtain rfl := eq_of_respond (exec_decode_of_none hs hn hw hm hd) hexec hr
    exact .inr ⟨rfl, congrArg (· + 1) hw⟩
  | some found =>
    obtain rfl := eq_of_respond (exec_decode_of_some hs hn hw hm hd) hexec hr
    exact .inl ⟨rfl, congrArg (· + 2) ((length_of_rsDecode hd).trans hw)⟩

end

/-- Settles O18: each command's answer once its checks pass, which the well-formed operands meet, and its length. -/
theorem responseLengthsOfTheOperations : Obligations.ResponseLengthsOfTheOperations := by
  intro i s t r hwf hb hexec hr
  have hs := hb.initd
  cases i with
  | init =>
    obtain rfl := eq_of_respond (exec_init_of_initd hs) hexec hr
    exact ⟨rfl, rfl⟩
  | gfmul a b =>
    obtain rfl := eq_of_respond (exec_gfmul_of_initd hs a b) hexec hr
    exact ⟨rfl, rfl⟩
  | gfinv x =>
    obtain rfl := eq_of_respond (exec_gfinv_of_initd hs x) hexec hr
    exact ⟨rfl, rfl⟩
  | gflog x =>
    obtain rfl := eq_of_respond (exec_gflog_of_initd hs x) hexec hr
    exact ⟨rfl, rfl⟩
  | gfexp e =>
    obtain rfl := eq_of_respond (exec_gfexp_of_initd hs e) hexec hr
    exact ⟨rfl, rfl⟩
  | gfpow111 x =>
    obtain rfl := eq_of_respond (exec_gfpow111_of_initd hs x) hexec hr
    exact ⟨rfl, rfl⟩
  | peval x p =>
    obtain rfl := eq_of_respond (exec_peval_of_initd hs x p) hexec hr
    exact ⟨rfl, rfl⟩
  | pmul p q => exact responseLength_pmul hs hexec hr
  | genpoly n =>
    obtain rfl := eq_of_respond (exec_genpoly_of_legal hs hwf) hexec hr
    refine ⟨rfl, ?_⟩
    rw [length_bytes, length_normalField, (monicOfDegree_buildGenerator _ _).deg_eq]
  | encode n message =>
    obtain ⟨hn, hm⟩ := Bool.and_eq_true_iff.mp hwf
    have hm : message.length = 255 - n.toNat := of_decide_eq_true hm
    obtain rfl := eq_of_respond (exec_encode_of_legal hs hn hm) hexec hr
    have := n.isLt
    refine ⟨rfl, ?_⟩
    rw [length_bytes, length_rsEncode]
    omega
  | synd n word =>
    obtain ⟨hn, hw⟩ := Bool.and_eq_true_iff.mp hwf
    obtain rfl := eq_of_respond (exec_synd_of_legal hs hn (length_of_wordFits hw)) hexec hr
    exact ⟨rfl, congrArg (· + 1) (length_syndromes _ _ _)⟩
  | eraloc mask =>
    have hm := length_of_wordFits hwf
    obtain rfl := eq_of_respond (exec_eraloc_of_legal hs hm) hexec hr
    refine ⟨rfl, ?_⟩
    rw [length_bytes, List.length_cons, length_normalField, (monicOfDegree_erasureLocator _ _).deg_eq,
      erasureLocator_count hm]
  | euclid n c p =>
    obtain ⟨hn, -⟩ := Bool.and_eq_true_iff.mp hwf
    exact responseLength_euclid hb hn hexec hr
  | finderr d sigma omega => exact responseLength_finderr hs hexec hr
  | decode n received mask => exact responseLength_decode hs hwf hexec hr

end Sys2Proof.Machine

/-! PROOFS. The field that `mul_bitwise` computes in (spec 40_field.md R90, R91, R99). A product is a sum of doublings
of its first factor, so that multiplication is additive in each factor and doubling can be moved from either factor to
the product; since every byte is made of 0x01 by doubling and adding, the laws follow by induction over that. -/

namespace Sys2Proof.Machine

/-! ### Doubling and sums -/

/-- A summand that stands in both parts of a sum cancels. -/
theorem xor_xor_cancel (a m b : Byte) : (a ^^^ m) ^^^ (m ^^^ b) = a ^^^ b := by
  rw [BitVec.xor_assoc, ← BitVec.xor_assoc m, BitVec.xor_self, BitVec.zero_xor]

theorem xtime_xor (x y : Byte) : xtime (x ^^^ y) = xtime x ^^^ xtime y := by
  unfold xtime
  rw [BitVec.getLsbD_xor, BitVec.shiftLeft_xor_distrib]
  cases x.getLsbD 7 <;> cases y.getLsbD 7
  · rfl
  · exact BitVec.xor_assoc _ _ _
  · show (x <<< 1 ^^^ y <<< 1) ^^^ Config.fieldRed = (x <<< 1 ^^^ Config.fieldRed) ^^^ y <<< 1
    ac_rfl
  · show x <<< 1 ^^^ y <<< 1 = (x <<< 1 ^^^ Config.fieldRed) ^^^ (y <<< 1 ^^^ Config.fieldRed)
    rw [BitVec.xor_comm (y <<< 1) Config.fieldRed, xor_xor_cancel]

theorem iterate_xtime_xor (i : Nat) (x y : Byte) : xtime^[i] (x ^^^ y) = xtime^[i] x ^^^ xtime^[i] y :=
  Function.Semiconj₂.iterate xtime_xor i x y

theorem gfSum_xor (k : Nat) (f g : Nat → Byte) : gfSum k (fun j => f j ^^^ g j) = gfSum k f ^^^ gfSum k g := by
  induction k with
  | zero => rw [gfSum_zero, gfSum_zero, gfSum_zero, BitVec.xor_zero]
  | succ k ih =>
    rw [gfSum_succ, gfSum_succ, gfSum_succ, ih]
    ac_rfl

theorem xtime_gfSum (k : Nat) (f : Nat → Byte) : xtime (gfSum k f) = gfSum k fun j => xtime (f j) := by
  induction k with
  | zero => rw [gfSum_zero, gfSum_zero]; rfl
  | succ k ih => rw [gfSum_succ, gfSum_succ, xtime_xor, ih]

/-- What the bit at i of the second factor adds to a product: the first factor doubled i times, or nothing. -/
def doubledAt (a b : Byte) (i : Nat) : Byte := if b.getLsbD i then xtime^[i] a else 0x00#8

theorem foldl_mulRound (a b : Byte) (k : Nat) :
    (List.range k).foldl (mulRound b) (0x00#8, a) = (gfSum k (doubledAt a b), xtime^[k] a) := by
  induction k with
  | zero => rfl
  | succ k ih =>
    rw [List.range_succ, List.foldl_append, ih, gfSum_succ, Function.iterate_succ_apply', doubledAt]
    simp only [List.foldl_cons, List.foldl_nil, mulRound]
    split
    · rfl
    · rw [BitVec.xor_zero]

theorem mulBitwise_eq_gfSum (a b : Byte) : mulBitwise a b = gfSum 8 (doubledAt a b) := by
  rw [mulBitwise, foldl_mulRound]

/-! ### Multiplication is additive, and doubling moves to the product -/

theorem mulBitwise_xor_left (a b c : Byte) : mulBitwise (a ^^^ b) c = mulBitwise a c ^^^ mulBitwise b c := by
  rw [mulBitwise_eq_gfSum, mulBitwise_eq_gfSum, mulBitwise_eq_gfSum, ← gfSum_xor]
  refine gfSum_congr fun i _ => ?_
  unfold doubledAt
  split
  · exact iterate_xtime_xor i a b
  · rfl

theorem mulBitwise_xor_right (a b c : Byte) : mulBitwise a (b ^^^ c) = mulBitwise a b ^^^ mulBitwise a c := by
  rw [mulBitwise_eq_gfSum, mulBitwise_eq_gfSum, mulBitwise_eq_gfSum, ← gfSum_xor]
  refine gfSum_congr fun i _ => ?_
  unfold doubledAt
  rw [BitVec.getLsbD_xor]
  cases b.getLsbD i <;> cases c.getLsbD i <;> simp

theorem mulBitwise_xtime_left (a b : Byte) : mulBitwise (xtime a) b = xtime (mulBitwise a b) := by
  rw [mulBitwise_eq_gfSum, mulBitwise_eq_gfSum, xtime_gfSum]
  refine gfSum_congr fun i _ => ?_
  unfold doubledAt
  split
  · rw [← Function.iterate_succ_apply, Function.iterate_succ_apply']
  · rfl

/-- Every byte is made of 0x01 by doubling and adding: it is its own product with 0x01, a sum of doublings of 0x01. -/
theorem byte_induction {P : Byte → Prop} (one : P 0x01#8) (double : ∀ x, P x → P (xtime x))
    (add : ∀ x y, P x → P y → P (x ^^^ y)) (x : Byte) : P x := by
  have zero : P 0x00#8 := add _ _ one one
  have doublings (i : Nat) : P (xtime^[i] 0x01#8) := Function.Iterate.rec P one double i
  have term (i : Nat) : P (doubledAt 0x01#8 x i) := by
    unfold doubledAt
    split
    · exact doublings i
    · exact zero
  have sums (k : Nat) : P (gfSum k (doubledAt 0x01#8 x)) := by
    induction k with
    | zero => exact zero
    | succ k ih => exact gfSum_succ k _ ▸ add _ _ ih (term k)
  rw [← mulBitwise_one_left x, mulBitwise_eq_gfSum]
  exact sums 8

theorem mulBitwise_one_right (a : Byte) : mulBitwise a 0x01#8 = a := by
  induction a using byte_induction with
  | one => rfl
  | double x ih => rw [mulBitwise_xtime_left, ih]
  | add x y hx hy => rw [mulBitwise_xor_left, hx, hy]

theorem mulBitwise_xtime_right (a b : Byte) : mulBitwise a (xtime b) = xtime (mulBitwise a b) := by
  induction a using byte_induction with
  | one => rw [mulBitwise_one_left, mulBitwise_one_left]
  | double x ih => rw [mulBitwise_xtime_left, mulBitwise_xtime_left, ih]
  | add x y hx hy => rw [mulBitwise_xor_left, mulBitwise_xor_left, xtime_xor, hx, hy]

/-! ### The laws of multiplication -/

theorem mulBitwise_comm (a b : Byte) : mulBitwise a b = mulBitwise b a := by
  induction b using byte_induction with
  | one => rw [mulBitwise_one_left, mulBitwise_one_right]
  | double x ih => rw [mulBitwise_xtime_left, mulBitwise_xtime_right, ih]
  | add x y hx hy => rw [mulBitwise_xor_left, mulBitwise_xor_right, hx, hy]

theorem mulBitwise_assoc (a b c : Byte) :
    mulBitwise (mulBitwise a b) c = mulBitwise a (mulBitwise b c) := by
  induction c using byte_induction with
  | one => rw [mulBitwise_one_right, mulBitwise_one_right]
  | double x ih => rw [mulBitwise_xtime_right, mulBitwise_xtime_right, mulBitwise_xtime_right, ih]
  | add x y hx hy => rw [mulBitwise_xor_right, mulBitwise_xor_right, mulBitwise_xor_right, hx, hy]

/-- Squaring is additive: the mixed products cancel (R99(i)). -/
theorem mulBitwise_self_xor (a b : Byte) :
    mulBitwise (a ^^^ b) (a ^^^ b) = mulBitwise a a ^^^ mulBitwise b b := by
  rw [mulBitwise_xor_left, mulBitwise_xor_right, mulBitwise_xor_right, mulBitwise_comm b a, xor_xor_cancel]

/-! ### Powers and inverses -/

theorem gfPow_succ (x : Byte) (e : Nat) : gfPow x (e + 1) = mulBitwise (gfPow x e) x := rfl

theorem gfPow_add (x : Byte) (d e : Nat) : gfPow x (d + e) = mulBitwise (gfPow x d) (gfPow x e) := by
  induction e with
  | zero => exact (mulBitwise_one_right _).symm
  | succ e ih => rw [← Nat.add_assoc, gfPow_succ, gfPow_succ, ih, mulBitwise_assoc]

/-- The number that bits, most significant first, are written as. -/
def binaryValue (bits : List Bool) : Nat := bits.foldl (fun e bit => Nat.bit bit e) 0

/-- A square/multiply chain computes the power whose exponent its bits are (40_field.md R93, R98). -/
theorem powChain_eq_gfPow (x : Byte) (bits : List Bool) : powChain mulBitwise x bits = gfPow x (binaryValue bits) := by
  induction bits using List.reverseRecOn with
  | nil => rfl
  | append_singleton bits bit ih =>
    simp only [powChain, binaryValue, List.foldl_append, List.foldl_cons, List.foldl_nil] at ih ⊢
    rw [ih]
    cases bit with
    | false => rw [Nat.bit_false_apply, Nat.two_mul, gfPow_add]; rfl
    | true => rw [Nat.bit_true_apply, Nat.two_mul, gfPow_succ, gfPow_add]; rfl

theorem invChain_eq_gfPow (x : Byte) : invChain mulBitwise x = gfPow x 254 := powChain_eq_gfPow x _

theorem pow111_eq_gfPow (x : Byte) : pow111 mulBitwise x = gfPow x 111 := powChain_eq_gfPow x _

theorem gfPow_255 {x : Byte} (hx : x ≠ 0x00#8) : gfPow x 255 = 0x01#8 := by
  rw [gfPow_succ, ← invChain_eq_gfPow, mulBitwise_invChain x hx]

theorem gfPow_zero_left {e : Nat} (he : e ≠ 0) : gfPow 0x00#8 e = 0x00#8 := by
  obtain ⟨e, rfl⟩ := Nat.exists_eq_succ_of_ne_zero he
  exact mulBitwise_zero_right _

theorem mulBitwise_gfPow_254 {x : Byte} (hx : x ≠ 0x00#8) : mulBitwise x (gfPow x 254) = 0x01#8 := by
  rw [mulBitwise_comm, ← gfPow_succ, gfPow_255 hx]

theorem eq_zero_of_mulBitwise_eq_zero {a b : Byte} (h : mulBitwise a b = 0x00#8) : a = 0x00#8 ∨ b = 0x00#8 := by
  refine or_iff_not_imp_left.mpr fun ha => ?_
  calc b = mulBitwise (mulBitwise (gfPow a 254) a) b := by
        rw [mulBitwise_comm _ a, mulBitwise_gfPow_254 ha, mulBitwise_one_left]
    _ = mulBitwise (gfPow a 254) 0x00#8 := by rw [mulBitwise_assoc, h]
    _ = 0x00#8 := mulBitwise_zero_right _

theorem gfPow_ne_zero {x : Byte} (hx : x ≠ 0x00#8) (e : Nat) : gfPow x e ≠ 0x00#8 := by
  induction e with
  | zero => exact (by decide : (0x01#8 : Byte) ≠ 0x00#8)
  | succ e ih => exact fun h => (eq_zero_of_mulBitwise_eq_zero h).elim ih hx

/-- The inverse of the inverse: x times its inverse, times the inverse of that. -/
theorem gfPow_254_gfPow_254 (x : Byte) : gfPow (gfPow x 254) 254 = x := by
  by_cases hx : x = 0x00#8
  · rw [hx, gfPow_zero_left (by decide), gfPow_zero_left (by decide)]
  · calc gfPow (gfPow x 254) 254 = mulBitwise (mulBitwise x (gfPow x 254)) (gfPow (gfPow x 254) 254) := by
          rw [mulBitwise_gfPow_254 hx, mulBitwise_one_left]
      _ = x := by
          rw [mulBitwise_assoc, mulBitwise_gfPow_254 (gfPow_ne_zero hx 254), mulBitwise_one_right]

end Sys2Proof.Machine

/-! PROOFS. The Field Engine's commands (spec 40_field.md R92 to R99): what the tables of `INIT` hold as powers, the
refusals that the commands share, and each command's answer. -/

namespace Sys2Proof.Machine

/-! ### The refusals of the operations -/

section
variable {s : State} {op : Opcode} {fields : List Byte}

/-- A packet that decodes gives a command of the operation that its opcode byte stands for. -/
theorem opcode_of_decode {i : Instr} (h : Sys2Proof.decode (op.code :: fields) = .ok i) : i.opcode = op := by
  obtain ⟨op', hop, hread⟩ := exists_readFields_of_decode h
  obtain rfl := Option.some.inj ((opcodeOfByte_code op).symm.trans hop)
  cases fieldsOf_of_readFields hread with
  | operands => rfl
  | illegal => rfl

/-- Before `INIT` the packets of every other operation are refused, whatever follows the opcode (10_state.md R24). -/
theorem packetAnswers_of_not_initd (hs : s.initd = false) (hop : op ≠ .init) (fields : List Byte) :
    PacketAnswers s op.code fields .errNotInit [] := by
  by_cases hd : ∃ i, Sys2Proof.decode (op.code :: fields) = .ok i
  · obtain ⟨i, hi⟩ := hd
    have hne : i ≠ .init := fun h => hop (by rw [← opcode_of_decode hi, h]; rfl)
    exact packetAnswers_of_decode_ok hi fun s' hs' _ =>
      uninitialisedCoreRefusesAllButInit i s' hne (hs'.trans hs)
  · obtain ⟨-, notInit, -, -⟩ := undecodablePacketsFollowTheCheckOrder s op.code fields (not_exists.mp hd)
    exact notInit op (opcodeOfByte_code op) hop hs

theorem decode_ne_ok_of_readFields (hr : ∀ i, readFields op fields ≠ some (i, [])) (i : Instr) :
    Sys2Proof.decode (op.code :: fields) ≠ .ok i := by
  simp [decode_of_wrongLength (opcodeOfByte_code op) hr]

/-- Once the initialisation check passes, a packet whose fields do not use its bytes exactly is refused for its length
(60_exceptions.md R173). -/
theorem packetAnswers_of_wrong_length (hs : op = .init ↔ s.initd = false)
    (hr : ∀ i, readFields op fields ≠ some (i, [])) : PacketAnswers s op.code fields .errLength [] := by
  obtain ⟨-, -, -, wrongLength⟩ :=
    undecodablePacketsFollowTheCheckOrder s op.code fields (decode_ne_ok_of_readFields hr)
  exact wrongLength op (opcodeOfByte_code op) hs

theorem readFields_init_ne (h : fields ≠ []) (i : Instr) : readFields .init fields ≠ some (i, []) := by
  rintro ⟨⟩
  exact h rfl

theorem withByte_ne_of_length (h : fields.length ≠ 1) (command : Byte → Instr) (i : Instr) :
    withByte fields (fun x rest => some (command x, rest)) ≠ some (i, []) := by
  intro hr
  obtain ⟨x, rest, rfl, hk⟩ := withByte_eq_some hr
  cases hk
  exact h rfl

theorem readFields_gfmul_ne (h : fields.length ≠ 2) (i : Instr) : readFields .gfmul fields ≠ some (i, []) := by
  intro hr
  obtain ⟨a, rest, rfl, hk⟩ := withByte_eq_some hr
  exact withByte_ne_of_length (fun hl => h (congrArg (· + 1) hl)) (Instr.gfmul a) i hk

/-- The operations of one operand byte refuse every packet of another length (30_encoding.md R63, R68). -/
theorem packetAnswers_of_length_ne_one (hs : s.initd = true) (hop : op ≠ .init) {command : Byte → Instr}
    (hread : ∀ bs, readFields op bs = withByte bs fun x rest => some (command x, rest))
    (h : fields.length ≠ 1) : PacketAnswers s op.code fields .errLength [] :=
  packetAnswers_of_wrong_length (by simp [hop, hs]) fun i => hread fields ▸ withByte_ne_of_length h command i

end

/-! ### INIT -/

theorem invt_of_tablesBuilt {s : State} (h : TablesBuilt s) (x : Byte) :
    s.invt.read x.toNat = some (gfPow x 254) := by rw [h.invt, invChain_eq_gfPow]

theorem expA_eq_aPow (e : Nat) : expA mulBitwise e = aPow e := by
  induction e with
  | zero => rfl
  | succ e ih => rw [expA, ih]; rfl

theorem aPow_111 : aPow 111 = 0x0F#8 := by decide +kernel

theorem a111_of_tablesBuilt {s : State} (h : TablesBuilt s) : s.a111 = some 0x0F#8 := by
  rw [h.a111, expA_eq_aPow, aPow_111]

/-- A second `INIT` is refused before its length is looked at (40_field.md R92). -/
theorem packetAnswers_init_of_initd {s : State} (hs : s.initd = true) (fields : List Byte) :
    PacketAnswers s Opcode.init.code fields .errAlreadyInit [] := by
  by_cases hf : fields = []
  · subst hf
    exact packetAnswers_of_decode_ok (decode_encode (i := .init) rfl) fun _ hs' _ =>
      exec_init_of_initd (hs'.trans hs)
  · obtain ⟨-, -, alreadyInit, -⟩ := undecodablePacketsFollowTheCheckOrder s Opcode.init.code fields
      (decode_ne_ok_of_readFields (readFields_init_ne hf))
    exact alreadyInit (opcodeOfByte_code .init) hs

/-- Settles O19: the state that `INIT` leaves has built tables, and they hold the powers that R92 names. -/
theorem initBuildsTheTables : Obligations.InitBuildsTheTables := by
  intro s
  refine ⟨fun hs => ?_, packetAnswers_init_of_initd, fun hs fields hf => ?_⟩
  · obtain ⟨hi, -⟩ | ⟨-, hexec⟩ := execInit_cases s
    · exact Bool.noConfusion (hs.symm.trans hi)
    · have built := tablesBuilt_of_init s (some ⟨.ok, []⟩)
      exact ⟨_, hexec, built.initd, built.mult, invt_of_tablesBuilt built, a111_of_tablesBuilt built, rfl, rfl,
        built.multWf, built.invtWf⟩
  · exact packetAnswers_of_wrong_length (op := .init) (by simp [hs]) (readFields_init_ne hf)

/-! ### The field of a core with built tables -/

section
variable {s : State} (h : TablesBuilt s)
include h

theorem mul_of_tablesBuilt : s.field.mul = mulBitwise := by rw [field_of_tablesBuilt h]; rfl

theorem inv_of_tablesBuilt (x : Byte) : s.field.inv x = gfPow x 254 := by
  rw [field_of_tablesBuilt h]
  exact invChain_eq_gfPow x

end

/-- Settles O23: the laws of `mul_bitwise` and of the power 254, which are what the tables hold. -/
theorem fieldLawsHoldAfterInit : Obligations.FieldLawsHoldAfterInit := by
  intro s hb a b c
  rw [mul_of_tablesBuilt hb, inv_of_tablesBuilt hb, inv_of_tablesBuilt hb]
  exact ⟨mulBitwise_comm a b, mulBitwise_assoc a b c, mulBitwise_xor_right a b c, mulBitwise_gfPow_254,
    gfPow_254_gfPow_254 a, mulBitwise_zero_right a, mulBitwise_one_right a, eq_zero_of_mulBitwise_eq_zero, gfPow_255,
    rfl, BitVec.xor_self, mulBitwise_self_xor a b⟩

/-! ### GFMUL and GFINV -/

/-- Settles O25: the built `MULT` holds the products. -/
theorem gfmulAnswersTheProduct : Obligations.GfmulAnswersTheProduct := by
  refine fun s => ⟨fun hb a b => ?_, fun hs => packetAnswers_of_not_initd (op := .gfmul) hs Opcode.noConfusion,
    fun hs _ hf => packetAnswers_of_wrong_length (op := .gfmul) (by simp [hs]) (readFields_gfmul_ne hf)⟩
  rw [exec_gfmul_of_initd hb.initd, mul_of_tablesBuilt hb]
  rfl

/-- Settles O26: the built `INVT` holds the powers 254, and a power 255 of a non-zero byte is 0x01. -/
theorem gfinvAnswersTheInverse : Obligations.GfinvAnswersTheInverse := by
  refine fun s => ⟨fun hb x => ⟨gfPow x 254, ?_, rfl, ?_, mulBitwise_gfPow_254⟩,
    fun hs => packetAnswers_of_not_initd (op := .gfinv) hs Opcode.noConfusion,
    fun hs _ => packetAnswers_of_length_ne_one (op := .gfinv) hs Opcode.noConfusion fun _ => rfl⟩
  · rw [exec_gfinv_of_initd hb.initd, inv_of_tablesBuilt hb]
    rfl
  · rintro rfl
    exact gfPow_zero_left (by decide)

/-! ### Logarithms and powers of the primitive element -/

/-- The search meets its exponent at the first power that fits, since the powers below 255 are all different
(40_field.md R96). -/
theorem logSearch_aPow {k count i : Nat} (hk : k < count) (hi : i + k < 255) :
    logSearch mulBitwise (aPow (i + k)) count i (aPow i) = i + k := by
  induction k generalizing count i with
  | zero =>
    obtain ⟨count, rfl⟩ := Nat.exists_eq_succ_of_ne_zero hk.ne'
    exact if_pos rfl
  | succ k ih =>
    obtain ⟨count, rfl⟩ := Nat.exists_eq_succ_of_ne_zero (Nat.ne_zero_of_lt hk)
    have differ : aPow i ≠ aPow (i + (k + 1)) := fun h => by
      have := aPow_injOn (show i < 255 by omega) hi h
      omega
    rw [logSearch, if_neg differ, show i + (k + 1) = i + 1 + k by omega]
    exact ih (by omega) (by omega)

/-- No power of the primitive element is 0x00, so that the search ends in the sentinel. -/
theorem logSearch_zero (count i : Nat) : logSearch mulBitwise 0x00#8 count i (aPow i) = 255 := by
  induction count generalizing i with
  | zero => rfl
  | succ count ih =>
    rw [logSearch, if_neg (aPow_ne_zero i)]
    exact ih (i + 1)

theorem logA_aPow {e : Nat} (he : e < 255) : logA mulBitwise (aPow e) = e := by
  have := logSearch_aPow (i := 0) he (by omega)
  rwa [Nat.zero_add] at this

theorem logA_zero : logA mulBitwise 0x00#8 = 255 := logSearch_zero 255 0

theorem logA_lt {x : Byte} (hx : x ≠ 0x00#8) : logA mulBitwise x < 255 := by
  obtain ⟨e, he, rfl⟩ := exists_aPow_eq hx
  rwa [logA_aPow he]

theorem aPow_logA {x : Byte} (hx : x ≠ 0x00#8) : aPow (logA mulBitwise x) = x := by
  obtain ⟨e, he, rfl⟩ := exists_aPow_eq hx
  rw [logA_aPow he]

/-- Settles O27: every non-zero byte is one power below 255, which the search finds. -/
theorem gflogAnswersTheLogarithm : Obligations.GflogAnswersTheLogarithm := by
  refine fun s => ⟨fun hb x => ⟨logA mulBitwise x, ?_, ?_, fun hx => ⟨?_, aPow_logA hx, ?_⟩⟩,
    fun hs => packetAnswers_of_not_initd (op := .gflog) hs Opcode.noConfusion,
    fun hs _ => packetAnswers_of_length_ne_one (op := .gflog) hs Opcode.noConfusion fun _ => rfl⟩
  · rw [exec_gflog_of_initd hb.initd, mul_of_tablesBuilt hb]
    rfl
  · rintro rfl
    exact logA_zero
  · exact Nat.le_of_lt_succ (logA_lt hx)
  · rintro j hj rfl
    exact (logA_aPow (Nat.lt_succ_of_le hj)).symm

/-- Settles O28: `exp_a` is the power of the primitive element, which `log_a` undoes below 255. -/
theorem gfexpAnswersThePower : Obligations.GfexpAnswersThePower := by
  refine fun s => ⟨fun hb e => ⟨?_, aPow_ne_zero _⟩, fun hb => ?_,
    fun hs => packetAnswers_of_not_initd (op := .gfexp) hs Opcode.noConfusion,
    fun hs _ => packetAnswers_of_length_ne_one (op := .gfexp) hs Opcode.noConfusion fun _ => rfl⟩
  · rw [exec_gfexp_of_initd hb.initd, mul_of_tablesBuilt hb, expA_eq_aPow]
    rfl
  · rw [mul_of_tablesBuilt hb, logA_zero]
    refine ⟨rfl, aPow_255, fun e he => logA_aPow (Nat.lt_succ_of_le he), ?_, fun x => aPow_logA, aPow_255⟩
    rw [aPow_255]
    exact logA_aPow (e := 0) (by decide)

/-! ### GFPOW111 -/

theorem gfPow_one_left (e : Nat) : gfPow 0x01#8 e = 0x01#8 := by
  induction e with
  | zero => rfl
  | succ e ih => rw [gfPow_succ, ih, mulBitwise_one_left]

/-- Settles O29: the chain's bits write 111, and A111 is that power of the primitive element. -/
theorem gfpow111AnswersThePower : Obligations.Gfpow111AnswersThePower := by
  refine fun s => ⟨fun hb x => ?_, fun hb =>
      ⟨gfPow_zero_left (by decide), gfPow_one_left 111, aPow_111, a111_of_tablesBuilt hb⟩,
    fun hs => packetAnswers_of_not_initd (op := .gfpow111) hs Opcode.noConfusion,
    fun hs _ => packetAnswers_of_length_ne_one (op := .gfpow111) hs Opcode.noConfusion fun _ => rfl⟩
  rw [exec_gfpow111_of_initd hb.initd, mul_of_tablesBuilt hb, pow111_eq_gfPow]
  rfl

end Sys2Proof.Machine

/-! PROOFS. Polynomials over the built field (spec 41_poly.md R110 to R114): Horner's rule computes the sum of p[j]·x^j,
the loops of `multiply` leave the convolution, and the product of the two leading coefficients, which is not zero, gives
the degree. -/

namespace Sys2Proof.Machine

/-! ### Sums -/

theorem gfSum_succ_left (k : Nat) (f : Nat → Byte) : gfSum (k + 1) f = f 0 ^^^ gfSum k fun j => f (j + 1) := by
  induction k with
  | zero => rw [gfSum_succ, gfSum_zero, gfSum_zero, BitVec.xor_comm]
  | succ k ih => rw [gfSum_succ, ih, gfSum_succ, BitVec.xor_assoc]

theorem mulBitwise_gfSum_left (k : Nat) (f : Nat → Byte) (a : Byte) :
    mulBitwise (gfSum k f) a = gfSum k fun j => mulBitwise (f j) a := by
  induction k with
  | zero => exact mulBitwise_zero_left a
  | succ k ih => rw [gfSum_succ, gfSum_succ, mulBitwise_xor_left, ih]

/-- Zero summands at the end do not change a sum. -/
theorem gfSum_eq_of_le {m n : Nat} {f : Nat → Byte} (hmn : m ≤ n) (h : ∀ j, m ≤ j → j < n → f j = 0x00#8) :
    gfSum n f = gfSum m f := by
  induction n, hmn using Nat.le_induction with
  | base => rfl
  | succ n hmn ih => rw [gfSum_succ, ih fun j hj hn => h j hj (by omega), h n hmn (by omega), BitVec.xor_zero]

theorem gfSum_eq_zero {k : Nat} {f : Nat → Byte} (h : ∀ j, j < k → f j = 0x00#8) : gfSum k f = 0x00#8 :=
  gfSum_eq_of_le (Nat.zero_le k) fun j _ => h j

/-- The sum of a sequence that vanishes from two bounds on is the same up to either. -/
theorem gfSum_eq_of_vanishes {m n : Nat} {f : Nat → Byte} (hm : ∀ j, m ≤ j → f j = 0x00#8)
    (hn : ∀ j, n ≤ j → f j = 0x00#8) : gfSum m f = gfSum n f := by
  obtain hmn | hnm := Nat.le_total m n
  · exact (gfSum_eq_of_le hmn fun j hj _ => hm j hj).symm
  · exact gfSum_eq_of_le hnm fun j hj _ => hn j hj

theorem gfSum_eq_single {k m : Nat} {f : Nat → Byte} (hm : m < k) (h : ∀ j, j ≠ m → f j = 0x00#8) :
    gfSum k f = f m := by
  rw [gfSum_eq_of_le (m := m + 1) hm fun j hj _ => h j (by omega), gfSum_succ,
    gfSum_eq_zero fun j hj => h j (by omega), BitVec.zero_xor]

/-! ### The value of a polynomial -/

@[simp] theorem builtField_mul : builtField.mul = mulBitwise := rfl

theorem polyValue_cons (c : Byte) (p : List Byte) (x : Byte) :
    polyValue (c :: p) x = mulBitwise (polyValue p x) x ^^^ c := by
  unfold polyValue
  rw [List.length_cons, gfSum_succ_left, mulBitwise_gfSum_left, BitVec.xor_comm]
  congr 1
  · exact gfSum_congr fun j _ => (mulBitwise_assoc (coef p j) (gfPow x j) x).symm
  · exact mulBitwise_one_right c

/-- Horner's rule (R110). -/
theorem evaluate_eq_polyValue (p : List Byte) (x : Byte) : evaluate builtField p x = polyValue p x := by
  induction p with
  | nil => rfl
  | cons c p ih => rw [polyValue_cons, ← ih]; rfl

/-! ### PEVAL -/

theorem readFields_peval_ne {fields : List Byte}
    (h : ∀ x p, polyFits p = true → fields ≠ x :: polyField p) (i : Instr) :
    readFields .peval fields ≠ some (i, []) := by
  intro hr
  obtain ⟨x, _, rfl, hr⟩ := withByte_eq_some hr
  obtain ⟨p, rest, rfl, hp, hr⟩ := withPoly_eq_some hr
  cases hr
  exact h x p hp (by rw [List.append_nil])

/-- Settles O30: the value that PEVAL answers is Horner's, which is the sum for every list. -/
theorem pevalAnswersThePolynomialValue : Obligations.PevalAnswersThePolynomialValue := by
  refine fun s => ⟨fun hb x p => ?_, fun hs => packetAnswers_of_not_initd (op := .peval) hs Opcode.noConfusion,
    fun hs _ hf => packetAnswers_of_wrong_length (op := .peval) (by simp [hs]) (readFields_peval_ne hf)⟩
  rw [exec_peval_of_initd hb.initd, field_of_tablesBuilt hb, evaluate_eq_polyValue]
  rfl

/-! ### The coefficients and the degree of a product -/

/-- The summand of the coefficient of x^k in which p's coefficient is the one at i. -/
def convTerm (p q : List Byte) (k i : Nat) : Byte :=
  if i ≤ k then mulBitwise (coef p i) (coef q (k - i)) else 0x00#8

theorem convTerm_of_length_le {p : List Byte} {i : Nat} (h : p.length ≤ i) (q : List Byte) (k : Nat) :
    convTerm p q k i = 0x00#8 := by
  rw [convTerm, coef_of_length_le h, mulBitwise_zero_left, ite_self]

theorem convTerm_of_lt {k i : Nat} (h : k < i) (p q : List Byte) : convTerm p q k i = 0x00#8 :=
  if_neg (Nat.not_le.mpr h)

theorem convCoef_eq_gfSum_convTerm (p q : List Byte) (k : Nat) : convCoef p q k = gfSum (k + 1) (convTerm p q k) :=
  gfSum_congr fun _ hi => (if_pos (Nat.le_of_lt_succ hi)).symm

/-- The loops of `multiply` add up the summands that lie within both factors; the others are zero (R112). -/
theorem coef_convolve_builtField (p : List Byte) {q : List Byte} (hq : q ≠ []) (k : Nat) :
    coef (convolve builtField p q) k = convCoef p q k := by
  have within (i : Nat) : (if i ≤ k ∧ k < i + q.length then mulBitwise (coef p i) (coef q (k - i)) else 0x00#8)
      = convTerm p q k i := by
    unfold convTerm
    by_cases hk : k < i + q.length
    · simp only [hk, and_true]
    · rw [if_neg (by omega), coef_of_length_le (p := q) (by omega), mulBitwise_zero_right, ite_self]
  calc coef (convolve builtField p q) k = gfSum p.length (convTerm p q k) :=
        (coef_convolve builtField hq k).2.trans (gfSum_congr fun i _ => within i)
    _ = gfSum (k + 1) (convTerm p q k) :=
        gfSum_eq_of_vanishes (fun _ hi => convTerm_of_length_le hi q k) fun _ hi => convTerm_of_lt hi p q
    _ = convCoef p q k := (convCoef_eq_gfSum_convTerm p q k).symm

@[simp] theorem convCoef_trim (p q : List Byte) (k : Nat) : convCoef (trim p) (trim q) k = convCoef p q k := by
  simp only [convCoef, coef_trim]

@[simp] theorem coef_multiply (p q : List Byte) (k : Nat) : coef (multiply builtField p q) k = convCoef p q k := by
  rw [multiply, coef_trim, coef_convolve_builtField _ (trim_ne_nil q), convCoef_trim]

@[simp] theorem trim_multiply (F : Field) (p q : List Byte) : trim (multiply F p q) = multiply F p q := trim_trim _

/-- At the sum of the degrees the only summand is the product of the leading coefficients. -/
theorem convCoef_deg_add_deg (p q : List Byte) : convCoef p q (deg p + deg q) = mulBitwise (lead p) (lead q) := by
  have other (i : Nat) (hi : i ≠ deg p) : convTerm p q (deg p + deg q) i = 0x00#8 := by
    unfold convTerm
    obtain hlt | hgt := Nat.lt_or_gt_of_ne hi
    · rw [coef_of_deg_lt (p := q) (by omega), mulBitwise_zero_right, ite_self]
    · rw [coef_of_deg_lt hgt, mulBitwise_zero_left, ite_self]
  rw [convCoef_eq_gfSum_convTerm, gfSum_eq_single (by omega) other, convTerm, if_pos (by omega),
    Nat.add_sub_cancel_left]
  rfl

/-- The degrees of two factors that are not zero add up (R112). -/
theorem deg_multiply {p q : List Byte} (hp : lead p ≠ 0x00#8) (hq : lead q ≠ 0x00#8) :
    deg (multiply builtField p q) = deg p + deg q := by
  refine deg_eq_of_coef ?_ fun j hj => coef_of_deg_lt ((deg_multiply_le builtField p q).trans_lt hj)
  rw [coef_multiply, convCoef_deg_add_deg]
  exact fun h => (eq_zero_of_mulBitwise_eq_zero h).elim hp hq

/-! ### PMUL -/

theorem readFields_pmul_ne {fields : List Byte}
    (h : ∀ p q, polyFits p = true → polyFits q = true → fields ≠ polyField p ++ polyField q) (i : Instr) :
    readFields .pmul fields ≠ some (i, []) := by
  intro hr
  obtain ⟨p, _, rfl, hp, hr⟩ := withPoly_eq_some hr
  obtain ⟨q, rest, rfl, hq, hr⟩ := withPoly_eq_some hr
  cases hr
  exact h p q hp hq (by rw [List.append_nil])

/-- Settles O31: the product's coefficients are the convolution's, and the degree check comes before the product. -/
theorem pmulAnswersTheProduct : Obligations.PmulAnswersTheProduct := by
  refine fun s => ⟨fun hb p q h => ⟨multiply builtField p q, ?_, trim_multiply _ p q, coef_multiply p q, deg_multiply⟩,
    fun hs _ _ => exec_pmul_of_too_long hs,
    fun hs => packetAnswers_of_not_initd (op := .pmul) hs Opcode.noConfusion,
    fun hs _ hf => packetAnswers_of_wrong_length (op := .pmul) (by simp [hs]) (readFields_pmul_ne hf)⟩
  rw [exec_pmul_of_fits hb.initd h, field_of_tablesBuilt hb, normalField, trim_multiply]
  rfl

/-! ### Multiplication by x xor root -/

/-- Beyond the end of g the product with the root is zero, so that R114's closed form needs no case for it. -/
theorem coef_mulByRoot_builtField (g : List Byte) (root : Byte) (j : Nat) :
    coef (mulByRoot builtField g root) j =
      (if j = 0 then 0x00#8 else coef g (j - 1)) ^^^ mulBitwise root (coef g j) := by
  rw [coef_mulByRoot, builtField_mul]
  by_cases hj : j < g.length
  · rw [if_pos hj]
  · rw [if_neg hj, coef_of_length_le (p := g) (j := j) (Nat.not_lt.mp hj), mulBitwise_zero_right]

/-- The factor x xor root has two coefficients, so that two summands are left. -/
theorem convCoef_root (g : List Byte) (root : Byte) (j : Nat) :
    convCoef g [root, 0x01#8] j = (if j = 0 then 0x00#8 else coef g (j - 1)) ^^^ mulBitwise root (coef g j) := by
  rw [convCoef, gfSum_succ, Nat.sub_self, mulBitwise_comm root]
  congr 1
  cases j with
  | zero => rfl
  | succ k =>
    rw [gfSum_succ, gfSum_eq_zero, BitVec.zero_xor, Nat.add_sub_cancel_left, if_neg (Nat.succ_ne_zero k)]
    · exact mulBitwise_one_right _
    · intro i hi
      rw [coef_of_length_le (p := [root, 0x01#8]) (by simp; omega), mulBitwise_zero_right]

theorem MonicOfDegree.lead_ne_zero {g : List Byte} {d : Nat} (h : MonicOfDegree g d) : lead g ≠ 0x00#8 := by
  rw [lead, h.deg_eq, h.top]
  decide

theorem monicOfDegree_root (root : Byte) : MonicOfDegree [root, 0x01#8] 1 := ⟨rfl, rfl⟩

/-- Settles O32: the two have the same coefficients, and the same length because g's leading coefficient is not zero. -/
theorem rootMultiplyIsMultiplication : Obligations.RootMultiplyIsMultiplication := by
  intro g root hg hlead
  refine eq_of_coef ?_ fun j => by rw [coef_mulByRoot_builtField, coef_multiply, convCoef_root]
  have hroot := monicOfDegree_root root
  calc (mulByRoot builtField g root).length = (trim g).length + 1 := by rw [length_mulByRoot, hg]
    _ = deg (multiply builtField g [root, 0x01#8]) + 1 := by
      rw [length_trim, deg_multiply hlead hroot.lead_ne_zero, hroot.deg_eq]
    _ = (multiply builtField g [root, 0x01#8]).length := by rw [← length_trim, trim_multiply]

end Sys2Proof.Machine

/-! PROOFS. The Generator and Encoder (spec 42_encoder.md R120 to R123): the value of a product with (x xor root) is the
product of the values, so that each round of `build_generator` adds one root; and a step of the long division takes a
multiple of the generator away, so that the value at each of its roots stays what it was. -/

namespace Sys2Proof.Machine

/-! ### Values of sums, shifts and multiples -/

theorem coef_append (p q : List Byte) (j : Nat) :
    coef (p ++ q) j = if j < p.length then coef p j else coef q (j - p.length) := by
  split
  · next h => exact List.getD_append p q 0#8 j h
  · next h => exact List.getD_append_right p q 0#8 j (Nat.not_lt.mp h)

theorem coef_zeros_append (k : Nat) (p : List Byte) (j : Nat) :
    coef (zeros k ++ p) j = if j < k then 0x00#8 else coef p (j - k) := by
  rw [coef_append, length_zeros, coef_zeros]

theorem coef_map_mulBitwise (c : Byte) (p : List Byte) (j : Nat) :
    coef (p.map (mulBitwise c)) j = mulBitwise c (coef p j) := by
  have h := List.getD_map (l := p) (d := 0x00#8) (n := j) (mulBitwise c)
  rwa [mulBitwise_zero_right] at h

theorem gfPow_one (x : Byte) : gfPow x 1 = x := mulBitwise_one_left x

theorem polyValue_eq_gfSum {p : List Byte} {k : Nat} (h : p.length ≤ k) (x : Byte) :
    polyValue p x = gfSum k fun j => mulBitwise (coef p j) (gfPow x j) :=
  (gfSum_eq_of_le h fun j hj _ => by rw [coef_of_length_le hj, mulBitwise_zero_left]).symm

/-- The value of a sum of polynomials, whatever their lengths. -/
theorem polyValue_of_coef_xor {p q r : List Byte} (h : ∀ j, coef r j = coef p j ^^^ coef q j) (x : Byte) :
    polyValue r x = polyValue p x ^^^ polyValue q x := by
  have hp : p.length ≤ p.length + q.length + r.length := by omega
  have hq : q.length ≤ p.length + q.length + r.length := by omega
  have hr : r.length ≤ p.length + q.length + r.length := by omega
  rw [polyValue_eq_gfSum hp, polyValue_eq_gfSum hq, polyValue_eq_gfSum hr, ← gfSum_xor]
  exact gfSum_congr fun j _ => by rw [h, mulBitwise_xor_left]

theorem polyValue_zeros_append (k : Nat) (p : List Byte) (x : Byte) :
    polyValue (zeros k ++ p) x = mulBitwise (polyValue p x) (gfPow x k) := by
  induction k with
  | zero => exact (mulBitwise_one_right _).symm
  | succ k ih =>
    show polyValue (0x00#8 :: (zeros k ++ p)) x = _
    rw [polyValue_cons, ih, BitVec.xor_zero, mulBitwise_assoc, gfPow_succ]

theorem polyValue_map_mulBitwise (c : Byte) (p : List Byte) (x : Byte) :
    polyValue (p.map (mulBitwise c)) x = mulBitwise c (polyValue p x) := by
  induction p with
  | nil => exact (mulBitwise_zero_right c).symm
  | cons d p ih => rw [List.map_cons, polyValue_cons, polyValue_cons, ih, mulBitwise_xor_right, mulBitwise_assoc]

/-! ### The roots of the generator -/

/-- `mul_by_root` adds the polynomial one place up to its multiple by the root (41_poly.md R114). -/
theorem polyValue_mulByRoot (g : List Byte) (root x : Byte) :
    polyValue (mulByRoot builtField g root) x = mulBitwise (polyValue g x) (x ^^^ root) := by
  have sum (j : Nat) : coef (mulByRoot builtField g root) j
      = coef (zeros 1 ++ g) j ^^^ coef (g.map (mulBitwise root)) j := by
    simp only [coef_mulByRoot_builtField, coef_zeros_append, coef_map_mulBitwise, Nat.lt_one_iff]
  rw [polyValue_of_coef_xor sum, polyValue_zeros_append, polyValue_map_mulBitwise, mulBitwise_comm root,
    mulBitwise_xor_right, gfPow_one]

theorem mulBitwise_eq_zero_iff {a b : Byte} : mulBitwise a b = 0x00#8 ↔ a = 0x00#8 ∨ b = 0x00#8 := by
  refine ⟨eq_zero_of_mulBitwise_eq_zero, ?_⟩
  rintro (rfl | rfl)
  · exact mulBitwise_zero_left b
  · exact mulBitwise_zero_right a

/-- `mul_by_root` adds one root (42_encoder.md R120, 43_syndrome_erasure.md R132). -/
theorem polyValue_mulByRoot_eq_zero_iff (g : List Byte) (root x : Byte) :
    polyValue (mulByRoot builtField g root) x = 0x00#8 ↔ polyValue g x = 0x00#8 ∨ x = root := by
  rw [polyValue_mulByRoot, mulBitwise_eq_zero_iff, BitVec.xor_eq_zero_iff]

/-- With the running root at a^e, the rounds add the roots a^(e+1), a^(e+2), … (R120). -/
theorem polyValue_generatorLoop_eq_zero_iff (count e : Nat) (g : List Byte) (x : Byte) :
    polyValue (generatorLoop builtField count (aPow e) g) x = 0x00#8 ↔
      polyValue g x = 0x00#8 ∨ ∃ i, i < count ∧ x = aPow (e + 1 + i) := by
  induction count generalizing e g with
  | zero => simp [generatorLoop]
  | succ count ih =>
    have round : generatorLoop builtField (count + 1) (aPow e) g
        = generatorLoop builtField count (aPow (e + 1)) (mulByRoot builtField g (aPow (e + 1))) := rfl
    rw [round, ih, polyValue_mulByRoot_eq_zero_iff, Nat.exists_lt_succ_left, or_assoc]
    simp only [Nat.add_zero, Nat.add_assoc, Nat.add_comm 1]

/-- R120: the roots are exactly a^112, …, a^(111+n). -/
theorem polyValue_buildGenerator_eq_zero_iff (n : Nat) (x : Byte) :
    polyValue (buildGenerator builtField n) x = 0x00#8 ↔ ∃ i, i < n ∧ x = aPow (112 + i) := by
  have seed : builtField.a111 = aPow 111 := expA_eq_aPow 111
  have one : polyValue [0x01#8] x ≠ 0x00#8 := by
    rw [polyValue_cons, show polyValue [] x = 0x00#8 from rfl, mulBitwise_zero_left]
    decide
  rw [buildGenerator, seed, polyValue_generatorLoop_eq_zero_iff, or_iff_right one]

theorem MonicOfDegree.trim_eq {g : List Byte} {d : Nat} (h : MonicOfDegree g d) : trim g = g :=
  eq_of_coef (by rw [length_trim, h.deg_eq, h.length]) (coef_trim g)

/-! ### GENPOLY -/

section
variable {fields : List Byte}

/-- A format that begins with a parity count fails where every count it can carry is legal and the rest fails. -/
theorem withParity_ne_of_legal {illegal : Byte → Instr} {k : Byte → List Byte → Option (Instr × List Byte)}
    {i : Instr} (h : ∀ n rest, fields = n :: rest → parityInRange n = true ∧ k n rest ≠ some (i, [])) :
    withParity fields illegal k ≠ some (i, []) := by
  intro hr
  obtain ⟨n, rest, rfl, hcase⟩ := withParity_eq_some hr
  obtain ⟨hlegal, hk⟩ := h n rest rfl
  obtain ⟨-, hread⟩ | ⟨hillegal, -⟩ := hcase
  · exact hk hread
  · exact Bool.noConfusion (hlegal.symm.trans hillegal)

theorem withBytes_ne_of_length {count : Nat} (h : fields.length ≠ count) (command : List Byte → Instr) (i : Instr) :
    withBytes count fields (fun w rest => some (command w, rest)) ≠ some (i, []) := by
  intro hr
  obtain ⟨w, rest, rfl, hw, hk⟩ := withBytes_eq_some hr
  cases hk
  exact h (by rw [List.append_nil, hw])

theorem readFields_genpoly_ne (hl : fields.length ≠ 1) (hn : ∀ n rest, fields = n :: rest → parityInRange n = true)
    (i : Instr) : readFields .genpoly fields ≠ some (i, []) := by
  refine withParity_ne_of_legal fun n rest hf => ⟨hn n rest hf, fun hk => ?_⟩
  cases hk
  exact hl (by rw [hf]; rfl)

end

/-- Settles O33: the generator is monic of degree n, so that it is its own normal form, and each round of its loop adds
one root. -/
theorem genpolyAnswersTheGenerator : Obligations.GenpolyAnswersTheGenerator := by
  refine fun s => ⟨fun hb n hn => ?_, fun hs => packetAnswers_of_not_initd (op := .genpoly) hs Opcode.noConfusion,
    fun hs n rest hn => ?_, fun hs fields hl hn => ?_⟩
  · have monic := monicOfDegree_buildGenerator builtField n.toNat
    refine ⟨buildGenerator builtField n.toNat, ?_, monic.length, monic.top, polyValue_buildGenerator_eq_zero_iff _⟩
    rw [exec_genpoly_of_legal hb.initd hn, field_of_tablesBuilt hb, normalField, monic.trim_eq]
    rfl
  · exact packetAnswers_of_illegal_parity (op := .genpoly) hs hn Opcode.noConfusion (withParity_of_illegal hn _ _)
      fun _ => rfl
  · exact packetAnswers_of_wrong_length (op := .genpoly) (by simp [hs]) (readFields_genpoly_ne hl hn)

/-! ### The long division -/

section
variable {g w : List Byte} {n j : Nat}

/-- A step of the long division adds the multiple of the generator that c = w[j] asks for; where c is 0x00, the step
that is skipped would add nothing (R122). -/
theorem coef_divideStep (hg : MonicOfDegree g n) (hn : n ≤ j) (hj : j < w.length) (k : Nat) :
    coef (divideStep builtField g n w j) k
      = coef w k ^^^ coef (zeros (j - n) ++ g.map (mulBitwise (coef w j))) k := by
  rw [coef_zeros_append, coef_map_mulBitwise, divideStep]
  by_cases hc : coef w j = 0x00#8
  · rw [if_pos hc, hc, mulBitwise_zero_left, ite_self, BitVec.xor_zero]
  · obtain ⟨-, row⟩ := coef_convolveRow builtField (coef w j) g (j - n) (r := w) (m := n + 1) (by omega) k
    rw [if_neg hc, row, builtField_mul]
    congr 1
    by_cases hlo : k < j - n
    · rw [if_neg (by omega), if_pos hlo]
    · rw [if_neg hlo]
      by_cases hhi : k < j - n + (n + 1)
      · rw [if_pos (by omega)]
      · rw [if_neg (by omega), coef_of_length_le (p := g) (by rw [hg.length]; omega), mulBitwise_zero_right]

/-- What the long division keeps while it clears the word `dividend` from the top down to the index `top`: the value at
each root of the divisor g. -/
structure DividedDownTo (top : Nat) (g dividend w : List Byte) : Prop where
  length : w.length = dividend.length
  cleared : ∀ k, top ≤ k → coef w k = 0x00#8
  value : ∀ x, polyValue g x = 0x00#8 → polyValue w x = polyValue dividend x

theorem DividedDownTo.divideStep {dividend : List Byte} (h : DividedDownTo (j + 1) g dividend w)
    (hg : MonicOfDegree g n) (hn : n ≤ j) (hj : j < dividend.length) :
    DividedDownTo j g dividend (divideStep builtField g n w j) := by
  have step := coef_divideStep hg hn (h.length ▸ hj)
  refine ⟨(length_divideStep _ _ _ _ _).trans h.length, fun k hk => ?_, fun x hx => ?_⟩
  · rw [step, coef_zeros_append, if_neg (by omega), coef_map_mulBitwise]
    obtain rfl | hk := Nat.eq_or_lt_of_le hk
    · rw [Nat.sub_sub_self hn, hg.top, mulBitwise_one_right, BitVec.xor_self]
    · rw [h.cleared k hk, coef_of_length_le (p := g) (by rw [hg.length]; omega), mulBitwise_zero_right, BitVec.xor_zero]
  · rw [polyValue_of_coef_xor step, polyValue_zeros_append, polyValue_map_mulBitwise, hx, mulBitwise_zero_right,
      mulBitwise_zero_left, BitVec.xor_zero, h.value x hx]

/-- The whole division leaves a remainder below x^n (R122). -/
theorem dividedDownTo_divisionOrder {dividend : List Byte} (hg : MonicOfDegree g n) (hn : n ≤ 255)
    (hl : dividend.length = 255) :
    DividedDownTo n g dividend ((divisionOrder n).foldl (divideStep builtField g n) dividend) := by
  have rounds (m : Nat) (hm : m ≤ 255 - n) : DividedDownTo (255 - m) g dividend
      (((List.range m).map fun i => 254 - i).foldl (divideStep builtField g n) dividend) := by
    induction m with
    | zero => exact ⟨rfl, fun k hk => coef_of_length_le (hl.trans_le hk), fun _ _ => rfl⟩
    | succ m ih =>
      have before := ih (by omega)
      rw [show 255 - m = 254 - m + 1 by omega] at before
      rw [List.range_succ, List.map_append, List.foldl_append, show 255 - (m + 1) = 254 - m by omega]
      exact before.divideStep hg (by omega) (by omega)
  have all := rounds (255 - n) le_rfl
  rwa [Nat.sub_sub_self hn] at all

end

/-! ### ENCODE -/

section
variable {g w message : List Byte} {n : Nat}

/-- "Encoding never permutes message symbols" (R122). -/
theorem drop_rsEncode (F : Field) (message : List Byte) (n : Nat) : (rsEncode F message n).drop n = message := by
  refine List.drop_left' ?_
  rw [List.length_take, length_foldl_of_length_eq (length_divideStep F _ n), List.length_append, length_zeros]
  omega

/-- Where w is the remainder of message(x)·x^n, the codeword is the sum of the two (R122). -/
theorem DividedDownTo.coef_codeword (h : DividedDownTo n g (zeros n ++ message) w) (k : Nat) :
    coef (w.take n ++ message) k = coef w k ^^^ coef (zeros n ++ message) k := by
  have hw : w.length = n + message.length := by rw [h.length, List.length_append, length_zeros]
  rw [coef_append, List.length_take_of_le (by omega), coef_zeros_append, coef_take]
  by_cases hk : k < n
  · rw [if_pos hk, if_pos hk, if_pos hk, BitVec.xor_zero]
  · rw [if_neg hk, if_neg hk, h.cleared k (Nat.not_lt.mp hk), BitVec.zero_xor]

theorem DividedDownTo.polyValue_codeword (h : DividedDownTo n g (zeros n ++ message) w) {x : Byte}
    (hx : polyValue g x = 0x00#8) : polyValue (w.take n ++ message) x = 0x00#8 := by
  rw [polyValue_of_coef_xor h.coef_codeword, h.value x hx, BitVec.xor_self]

/-- Every root of the generator is a root of the codeword (R122). -/
theorem polyValue_rsEncode (hn : n ≤ 255) (hm : message.length = 255 - n) {x : Byte}
    (hx : polyValue (buildGenerator builtField n) x = 0x00#8) :
    polyValue (rsEncode builtField message n) x = 0x00#8 := by
  have hl : (zeros n ++ message).length = 255 := by rw [List.length_append, length_zeros]; omega
  exact (dividedDownTo_divisionOrder (monicOfDegree_buildGenerator builtField n) hn hl).polyValue_codeword hx

end

theorem readFields_encode_ne {n : Byte} {rest : List Byte} (hn : parityInRange n = true)
    (hl : rest.length ≠ 255 - n.toNat) (i : Instr) : readFields .encode (n :: rest) ≠ some (i, []) := by
  refine withParity_ne_of_legal fun n' rest' hf => ?_
  cases hf
  exact ⟨hn, withBytes_ne_of_length hl (Instr.encode n) i⟩

/-- Settles O34: the codeword and the remainder of the division differ by message(x)·x^n, whose value at each root of
the generator is the remainder's. -/
theorem encodeAnswersTheSystematicCodeword : Obligations.EncodeAnswersTheSystematicCodeword := by
  refine fun s => ⟨fun hb n message hn hm => ?_,
    fun hs => packetAnswers_of_not_initd (op := .encode) hs Opcode.noConfusion, fun hs n rest hn => ?_, fun hs => ?_,
    fun hs n rest hn hl => packetAnswers_of_wrong_length (op := .encode) (by simp [hs]) (readFields_encode_ne hn hl)⟩
  · have hle : n.toNat ≤ 255 := Nat.le_of_lt_succ n.isLt
    refine ⟨rsEncode builtField message n.toNat, ?_, ?_, drop_rsEncode _ _ _, fun i hi => ?_⟩
    · rw [exec_encode_of_legal hb.initd hn hm, field_of_tablesBuilt hb]
      rfl
    · rw [length_rsEncode, hm]
      omega
    · exact polyValue_rsEncode hle hm ((polyValue_buildGenerator_eq_zero_iff _ _).mpr ⟨i, hi, rfl⟩)
  · exact packetAnswers_of_illegal_parity (op := .encode) hs hn Opcode.noConfusion (withParity_of_illegal hn _ _)
      fun _ => rfl
  · exact packetAnswers_of_wrong_length (op := .encode) (by simp [hs]) fun _ => nofun

end Sys2Proof.Machine

/-! PROOFS. The Syndrome calculator and Erasure Locator (spec 43_syndrome_erasure.md R130 to R133): the running root of
`syndromes` runs through the powers of the primitive element, and each round of `erasure_locator` at a flagged position
adds that position's root. -/

namespace Sys2Proof.Machine

/-! ### SYND -/

/-- With the running root at a^e, the loop evaluates the word at a^(e+1), a^(e+2), … (R130). -/
theorem syndromeLoop_builtField (word : List Byte) (count e : Nat) :
    syndromeLoop builtField word count (aPow e)
      = (List.range count).map fun k => polyValue word (aPow (e + 1 + k)) := by
  induction count generalizing e with
  | zero => rfl
  | succ count ih =>
    have round : syndromeLoop builtField word (count + 1) (aPow e)
        = evaluate builtField word (aPow (e + 1)) :: syndromeLoop builtField word count (aPow (e + 1)) := rfl
    rw [round, evaluate_eq_polyValue, ih, List.range_succ_eq_map, List.map_cons, List.map_map]
    simp only [Function.comp_def, Nat.succ_eq_add_one, Nat.add_zero, Nat.add_assoc, Nat.add_comm 1]

theorem syndromes_builtField (word : List Byte) (n : Nat) :
    syndromes builtField word n = (List.range n).map fun k => polyValue word (aPow (112 + k)) := by
  have seed : builtField.a111 = aPow 111 := expA_eq_aPow 111
  rw [syndromes, seed, syndromeLoop_builtField]

theorem readFields_synd_ne {n : Byte} {rest : List Byte} (hn : parityInRange n = true) (hl : rest.length ≠ 255)
    (i : Instr) : readFields .synd (n :: rest) ≠ some (i, []) := by
  refine withParity_ne_of_legal fun n' rest' hf => ?_
  cases hf
  exact ⟨hn, withBytes_ne_of_length hl (Instr.synd n) i⟩

/-- Settles O35: the loop's values are Horner's at the successive powers of the primitive element. -/
theorem syndAnswersTheSyndromes : Obligations.SyndAnswersTheSyndromes := by
  refine fun s => ⟨fun hb n word hn hw => ?_,
    fun hs => packetAnswers_of_not_initd (op := .synd) hs Opcode.noConfusion, fun hs n rest hn => ?_, fun hs => ?_,
    fun hs n rest hn hl => packetAnswers_of_wrong_length (op := .synd) (by simp [hs]) (readFields_synd_ne hn hl)⟩
  · rw [exec_synd_of_legal hb.initd hn hw, field_of_tablesBuilt hb, syndromes_builtField]
    rfl
  · exact packetAnswers_of_illegal_parity (op := .synd) hs hn Opcode.noConfusion (withParity_of_illegal hn _ _)
      fun _ => rfl
  · exact packetAnswers_of_wrong_length (op := .synd) (by simp [hs]) fun _ => nofun

/-! ### ERALOC -/

theorem flagged_iff {b : Byte} : flagged b = true ↔ b ≠ 0x00#8 := bne_iff_ne

/-- The polynomial that `erasure_locator` starts with has no root (R132). -/
theorem polyValue_one_ne_zero (x : Byte) : polyValue [0x01#8] x ≠ 0x00#8 := by
  rw [polyValue_cons, show polyValue [] x = 0x00#8 from rfl, mulBitwise_zero_left]
  decide

/-- A round at a flagged position i adds the root a^(255-i); one at any other position adds none (R132). -/
theorem polyValue_erasureRound_eq_zero_iff (mask : List Byte) (gc : List Byte × Nat) (i : Nat) (x : Byte) :
    polyValue (erasureRound builtField mask gc i).1 x = 0x00#8 ↔
      polyValue gc.1 x = 0x00#8 ∨ coef mask i ≠ 0x00#8 ∧ x = aPow (255 - i) := by
  rw [erasureRound, builtField_mul, expA_eq_aPow, ← flagged_iff]
  by_cases hflag : flagged (coef mask i) = true
  · rw [if_pos hflag, polyValue_mulByRoot_eq_zero_iff, and_iff_right hflag]
  · rw [if_neg hflag, or_iff_left fun h => hflag h.1]

theorem polyValue_erasureRounds_eq_zero_iff (mask : List Byte) (k : Nat) (x : Byte) :
    polyValue (erasureRounds builtField mask k).1 x = 0x00#8 ↔
      ∃ i, i < k ∧ coef mask i ≠ 0x00#8 ∧ x = aPow (255 - i) := by
  induction k with
  | zero => exact iff_of_false (polyValue_one_ne_zero x) fun ⟨_, hi, _⟩ => Nat.not_lt_zero _ hi
  | succ k ih =>
    rw [erasureRounds_succ, polyValue_erasureRound_eq_zero_iff, ih, Nat.exists_lt_succ_right]

/-- Settles O36: the locator is monic, with one factor for each erasure counted, so that it is its own normal form; and
the rounds add exactly the roots of the flagged positions. -/
theorem eralocAnswersTheErasureLocator : Obligations.EralocAnswersTheErasureLocator := by
  refine fun s => ⟨fun hb mask hm => ?_, fun hs => packetAnswers_of_not_initd (op := .eraloc) hs Opcode.noConfusion,
    fun hs _ hl => packetAnswers_of_wrong_length (op := .eraloc) (by simp [hs])
      (withBytes_ne_of_length hl Instr.eraloc)⟩
  have monic := monicOfDegree_erasureLocator builtField mask
  rw [erasureLocator_count hm] at monic
  refine ⟨(erasureLocator builtField mask).1, ?_, monic.length, monic.top, polyValue_erasureRounds_eq_zero_iff mask 255⟩
  rw [exec_eraloc_of_legal hb.initd hm, field_of_tablesBuilt hb, erasureLocator_count hm, normalField, monic.trim_eq]
  rfl

end Sys2Proof.Machine

/-! PROOFS. The Euclidean Decoder Core (spec 44_euclid.md R140 to R142). The convolution is bilinear and commutative, so
that the scaled subtraction, which acts on a remainder and on its cofactor alike, keeps each pair's key equation and the
cross product of the two pairs; and it lowers the degree of the remainder, so that the loop meets the bound in time. -/

namespace Sys2Proof.Machine

/-! ### The convolution is bilinear and commutative -/

/-- The order of the summands can be reversed. -/
theorem gfSum_reflect (k : Nat) (f : Nat → Byte) : gfSum (k + 1) (fun j => f (k - j)) = gfSum (k + 1) f := by
  induction k with
  | zero => rfl
  | succ k ih =>
    rw [gfSum_succ_left, gfSum_succ (k + 1) f, ← ih, BitVec.xor_comm, Nat.sub_zero]
    simp only [Nat.add_sub_add_right]

theorem convCoef_comm (p q : List Byte) (k : Nat) : convCoef p q k = convCoef q p k := by
  rw [convCoef, ← gfSum_reflect, convCoef]
  refine gfSum_congr fun j hj => ?_
  rw [mulBitwise_comm, Nat.sub_sub_self (Nat.le_of_lt_succ hj)]

theorem convCoef_trim_left (p q : List Byte) (k : Nat) : convCoef (trim p) q k = convCoef p q k := by
  simp only [convCoef, coef_trim]

theorem convCoef_trim_right (p q : List Byte) (k : Nat) : convCoef p (trim q) k = convCoef p q k := by
  simp only [convCoef, coef_trim]

theorem convCoef_of_coef_xor {p q r : List Byte} (h : ∀ j, coef r j = coef p j ^^^ coef q j) (v : List Byte)
    (k : Nat) : convCoef r v k = convCoef p v k ^^^ convCoef q v k := by
  rw [convCoef, convCoef, convCoef, ← gfSum_xor]
  exact gfSum_congr fun j _ => by rw [h, mulBitwise_xor_left]

theorem mulBitwise_gfSum_right (c : Byte) (k : Nat) (f : Nat → Byte) :
    mulBitwise c (gfSum k f) = gfSum k fun j => mulBitwise c (f j) := by
  simp only [mulBitwise_comm c, mulBitwise_gfSum_left]

theorem convCoef_map_mulBitwise (c : Byte) (p q : List Byte) (k : Nat) :
    convCoef (p.map (mulBitwise c)) q k = mulBitwise c (convCoef p q k) := by
  rw [convCoef, convCoef, mulBitwise_gfSum_right]
  exact gfSum_congr fun j _ => by rw [coef_map_mulBitwise, mulBitwise_assoc]

theorem convCoef_of_coef_zero_left {p : List Byte} {k : Nat} (h : ∀ j, j ≤ k → coef p j = 0x00#8) (q : List Byte) :
    convCoef p q k = 0x00#8 :=
  gfSum_eq_zero fun j hj => by rw [h j (by omega), mulBitwise_zero_left]

theorem convCoef_cons_zero (p q : List Byte) (k : Nat) :
    convCoef (0x00#8 :: p) q (k + 1) = convCoef p q k := by
  rw [convCoef, gfSum_succ_left, show coef (0x00#8 :: p) 0 = 0x00#8 from rfl, mulBitwise_zero_left, BitVec.zero_xor,
    convCoef]
  refine gfSum_congr fun j _ => ?_
  rw [show coef (0x00#8 :: p) (j + 1) = coef p j from rfl, Nat.add_sub_add_right]

/-- Multiplying a factor by x^m moves the product's coefficients m places up. -/
theorem convCoef_zeros_append (m : Nat) (p q : List Byte) (k : Nat) :
    convCoef (zeros m ++ p) q k = if k < m then 0x00#8 else convCoef p q (k - m) := by
  split
  · next h => exact convCoef_of_coef_zero_left (fun j hj => by rw [coef_zeros_append, if_pos (by omega)]) q
  · next h =>
    induction m generalizing k with
    | zero => rfl
    | succ m ih =>
      obtain ⟨k, rfl⟩ := Nat.exists_eq_succ_of_ne_zero (show k ≠ 0 by omega)
      rw [show zeros (m + 1) ++ p = 0x00#8 :: (zeros m ++ p) from rfl, convCoef_cons_zero, ih k (by omega),
        Nat.succ_sub_succ]

theorem convCoef_one_left (q : List Byte) (k : Nat) : convCoef [0x01#8] q k = coef q k := by
  rw [convCoef, gfSum_succ_left, gfSum_eq_zero, BitVec.xor_zero]
  · exact mulBitwise_one_left _
  · exact fun j _ => mulBitwise_zero_left _

/-! ### The scaled subtraction -/

/-- `c · x^k · v` (R141). -/
def scaled (c : Byte) (k : Nat) (v : List Byte) : List Byte := zeros k ++ v.map (mulBitwise c)

theorem coef_scaled (c : Byte) (k : Nat) (v : List Byte) (j : Nat) :
    coef (scaled c k v) j = if j < k then 0x00#8 else mulBitwise c (coef v (j - k)) := by
  rw [scaled, coef_zeros_append, coef_map_mulBitwise]

/-- `u xor (c · x^k · v)`, in and beyond the two sequences (R141). -/
theorem coef_subtractScaled_builtField (u : List Byte) (c : Byte) (k : Nat) (v : List Byte) (j : Nat) :
    coef (subtractScaled builtField u c k v) j = coef u j ^^^ coef (scaled c k v) j := by
  rw [coef_scaled]
  by_cases hj : j < max u.length (v.length + k)
  · rw [coef_subtractScaled _ _ _ _ _ hj, builtField_mul]
    split
    · rw [mulBitwise_zero_right]
    · rfl
  · have hv : coef v (j - k) = 0x00#8 := coef_of_length_le (by omega)
    rw [coef_of_length_le (by rw [length_subtractScaled]; omega), coef_of_length_le (p := u) (by omega), hv,
      mulBitwise_zero_right, ite_self, BitVec.xor_zero]

theorem convCoef_scaled (c : Byte) (k : Nat) (p q : List Byte) (j : Nat) :
    convCoef (scaled c k p) q j = if j < k then 0x00#8 else mulBitwise c (convCoef p q (j - k)) := by
  rw [scaled, convCoef_zeros_append, convCoef_map_mulBitwise]

section
variable (p o : EuclidPair)

/-- The quotient of the leading coefficients, by which the other pair is scaled (R141). -/
def reduceFactor : Byte := mulBitwise (lead p.r) (invChain mulBitwise (lead o.r))

theorem coef_reducePair_r (j : Nat) : coef (reducePair builtField p o).r j
    = coef p.r j ^^^ coef (scaled (reduceFactor p o) (deg p.r - deg o.r) o.r) j :=
  (coef_trim _ j).trans (coef_subtractScaled_builtField _ _ _ _ j)

theorem coef_reducePair_t (j : Nat) : coef (reducePair builtField p o).t j
    = coef p.t j ^^^ coef (scaled (reduceFactor p o) (deg p.r - deg o.r) o.t) j :=
  (coef_trim _ j).trans (coef_subtractScaled_builtField _ _ _ _ j)

theorem convCoef_reducePair_r (q : List Byte) (j : Nat) : convCoef (reducePair builtField p o).r q j
    = convCoef p.r q j ^^^ convCoef (scaled (reduceFactor p o) (deg p.r - deg o.r) o.r) q j :=
  convCoef_of_coef_xor (coef_reducePair_r p o) q j

theorem convCoef_reducePair_t (q : List Byte) (j : Nat) : convCoef (reducePair builtField p o).t q j
    = convCoef p.t q j ^^^ convCoef (scaled (reduceFactor p o) (deg p.r - deg o.r) o.t) q j :=
  convCoef_of_coef_xor (coef_reducePair_t p o) q j

end

/-- The subtraction clears the leading coefficient of the remainder that it reduces (R141(a)). -/
theorem deg_reducePair_r_lt_self {p o : EuclidPair} (ho : deg o.r ≠ 0) (hle : deg o.r ≤ deg p.r) :
    deg (reducePair builtField p o).r < deg p.r := by
  have cleared : coef (reducePair builtField p o).r (deg p.r) = 0x00#8 := by
    rw [coef_reducePair_r, coef_scaled, if_neg (by omega), Nat.sub_sub_self hle, reduceFactor, mulBitwise_assoc,
      ← lead, ← lead, mulBitwise_invChain _ (lead_ne_zero ho), mulBitwise_one_right, BitVec.xor_self]
  refine Nat.lt_of_le_of_ne (deg_reducePair_r_le hle) fun he => ?_
  exact lead_ne_zero (p := (reducePair builtField p o).r) (by omega) (by rw [lead, he, cleared])

/-! ### What the loop keeps -/

/-- The congruence of R141(b) between a remainder and its cofactor: t·P ≡ r modulo x^n. -/
def KeyEquation (n : Nat) (product : List Byte) (p : EuclidPair) : Prop :=
  ∀ j, j < n → convCoef p.t product j = coef p.r j

/-- The cross product of two pairs, at x^j. -/
def crossCoef (p o : EuclidPair) (j : Nat) : Byte := convCoef p.r o.t j ^^^ convCoef p.t o.r j

theorem crossCoef_swap (p o : EuclidPair) (j : Nat) : crossCoef o p j = crossCoef p o j := by
  rw [crossCoef, convCoef_comm o.r, convCoef_comm o.t, BitVec.xor_comm, crossCoef]

/-- A multiple of a pair has no cross product with that pair. -/
theorem crossCoef_reducePair (p o : EuclidPair) (j : Nat) :
    crossCoef (reducePair builtField p o) o j = crossCoef p o j := by
  rw [crossCoef, convCoef_reducePair_r, convCoef_reducePair_t, convCoef_scaled, convCoef_scaled,
    convCoef_comm o.t o.r, BitVec.xor_comm (convCoef p.t o.r j), xor_xor_cancel, crossCoef]

theorem KeyEquation.reducePair {n : Nat} {product : List Byte} {p o : EuclidPair} (hp : KeyEquation n product p)
    (ho : KeyEquation n product o) : KeyEquation n product (reducePair builtField p o) := by
  intro j hj
  rw [convCoef_reducePair_t, coef_reducePair_r, hp j hj, convCoef_scaled, coef_scaled, ho _ (by omega)]

/-- What every round of `euclid` keeps of its two pairs. -/
structure EuclidInv (n : Nat) (product : List Byte) (p o : EuclidPair) : Prop where
  left : KeyEquation n product p
  right : KeyEquation n product o
  degrees : EuclidDegrees n p o
  cross : ∀ j, crossCoef p o j = coef (zeros n ++ [0x01#8]) j

section
variable {n bound : Nat} {product : List Byte} {p o : EuclidPair}

theorem EuclidInv.swap (h : EuclidInv n product p o) : EuclidInv n product o p :=
  ⟨h.right, h.left, h.degrees.swap, fun j => (crossCoef_swap p o j).trans (h.cross j)⟩

theorem EuclidInv.reducePair (h : EuclidInv n product p o) (hle : deg o.r ≤ deg p.r) :
    EuclidInv n product (reducePair builtField p o) o :=
  ⟨h.left.reducePair h.right, h.right, h.degrees.reducePair hle,
    fun j => (crossCoef_reducePair p o j).trans (h.cross j)⟩

/-- What `euclid` answers: a pair within the bound, the other pair being still above it. -/
structure EuclidResult (n bound : Nat) (product : List Byte) (p o : EuclidPair) : Prop where
  inv : EuclidInv n product p o
  within : deg p.r ≤ bound
  above : bound < deg o.r

/-- Each round lowers the sum of the degrees, which stays above twice the bound while the loop runs, so that the fuel
does not run out (R141(a)). -/
theorem exists_euclidResult_euclidLoop {fuel : Nat} {sel other : EuclidPair} (h : EuclidInv n product sel other)
    (hs : bound < deg sel.r) (ho : bound < deg other.r) (hfuel : deg sel.r + deg other.r ≤ fuel) :
    ∃ o, EuclidResult n bound product (euclidLoop builtField bound fuel sel other) o := by
  induction fuel generalizing sel other with
  | zero => omega
  | succ fuel ih =>
    have ordered {p o : EuclidPair} (h : EuclidInv n product p o) (ho : bound < deg o.r) (hle : deg o.r ≤ deg p.r)
        (hsum : deg p.r + deg o.r ≤ fuel + 1) :
        ∃ o', EuclidResult n bound product (euclidLoop builtField bound (fuel + 1) p o) o' := by
      have lower := deg_reducePair_r_lt_self (by omega) hle
      rw [euclidLoop_succ hle]
      split
      · next hstop => exact ⟨o, h.reducePair hle, hstop, ho⟩
      · next hgo => exact ih (h.reducePair hle) (Nat.not_le.mp hgo) ho (by omega)
    by_cases hlt : deg sel.r < deg other.r
    · rw [euclidLoop_succ_swap hlt]
      exact ordered h.swap hs hlt.le (by omega)
    · exact ordered h ho (Nat.not_lt.mp hlt) hfuel

end

/-! ### Where the loop starts -/

/-- `euclid`'s pair 0: x^n with the cofactor 0 (R141). -/
def powerPair (n : Nat) : EuclidPair := ⟨zeros n ++ [0x01#8], [0x00#8]⟩

/-- `euclid`'s pair 1: the n lowest coefficients of the product with the cofactor 1 (R141). -/
def productPair (product : List Byte) (n : Nat) : EuclidPair := ⟨trim (product.take n), [0x01#8]⟩

theorem euclid_eq (F : Field) (product : List Byte) (n s : Nat) :
    euclid F product n s =
      if deg (productPair product n).r ≤ euclidBound n s then productPair product n
      else euclidLoop F (euclidBound n s) (2 * n) (powerPair n) (productPair product n) := rfl

theorem deg_powerPair (n : Nat) : deg (powerPair n).r = n := (monicOfDegree_zeros_append_one n).deg_eq

theorem deg_productPair (product : List Byte) (n : Nat) :
    deg (productPair product n).r = deg (product.take n) := deg_trim _

theorem coef_powerPair_t (n j : Nat) : coef (powerPair n).t j = 0x00#8 := coef_zeros 1 j

theorem euclidInv_start (product : List Byte) {n : Nat} (hn : 1 ≤ n) :
    EuclidInv n product (powerPair n) (productPair product n) where
  left j hj := by
    rw [convCoef_of_coef_zero_left fun i _ => coef_powerPair_t n i]
    exact ((coef_zeros_append n _ j).trans (if_pos hj)).symm
  right j hj := by
    show convCoef [0x01#8] product j = coef (trim (product.take n)) j
    rw [convCoef_one_left, coef_trim, coef_take, if_pos hj]
  degrees := by
    have hP := deg_productPair product n ▸ deg_take_lt product hn
    exact ⟨(Nat.zero_add _).trans_le hP.le, (Nat.zero_add _).trans_le (deg_powerPair n).le⟩
  cross j := by
    rw [crossCoef, convCoef_of_coef_zero_left fun i _ => coef_powerPair_t n i, BitVec.xor_zero, convCoef_comm]
    exact convCoef_one_left _ j

/-! ### The stopping bound -/

theorem euclidBound_succ {n s : Nat} (hn : 1 ≤ n) (hs : s ≤ n) : euclidBound n s + 1 = s + (n + 1 - s) / 2 := by
  unfold euclidBound
  omega

/-- Settles O37: s and the floor of half of n + 1 - s, by arithmetic. -/
theorem stoppingBoundValue : Obligations.StoppingBoundValue := by
  intro n s hn _ hs
  have h := euclidBound_succ hn hs
  exact ⟨rfl, by omega, Nat.le_sub_one_of_lt (euclidBound_lt hn hs)⟩

/-! ### The result of EUCLID -/

section
variable {n bound : Nat} {product : List Byte} {p o : EuclidPair}

theorem exists_euclidResult (product : List Byte) (hn : 1 ≤ n) {s : Nat} (hs : s ≤ n) :
    ∃ o, EuclidResult n (euclidBound n s) product (euclid builtField product n s) o := by
  have start := euclidInv_start product hn
  have hx := deg_powerPair n
  have hP := deg_productPair product n ▸ deg_take_lt product hn
  have hbound := euclidBound_lt hn hs
  rw [euclid_eq]
  split
  · next hstop => exact ⟨_, start.swap, hstop, by omega⟩
  · next hgo => exact exists_euclidResult_euclidLoop start (by omega) (Nat.not_le.mp hgo) (by omega)

theorem lead_trim (p : List Byte) : lead (trim p) = lead p := by rw [lead, coef_trim, deg_trim, lead]

theorem coef_eq_zero_of_lead {p : List Byte} (h : lead p = 0x00#8) (j : Nat) : coef p j = 0x00#8 := by
  have hd : deg p = 0 := by_contra fun hd => lead_ne_zero hd h
  rcases Nat.eq_zero_or_pos j with rfl | hj
  · rwa [lead, hd] at h
  · exact coef_of_deg_lt (hd.trans_lt hj)

/-- A zero locator would leave a zero remainder below x^n, and the cross product with it would be zero at x^n. -/
theorem EuclidResult.lead_ne_zero (h : EuclidResult n bound product p o) (hb : bound < n) : lead p.t ≠ 0x00#8 := by
  intro hlead
  have ht := coef_eq_zero_of_lead hlead
  have hr (j : Nat) : coef p.r j = 0x00#8 := by
    by_cases hj : j < n
    · rw [← h.inv.left j hj, convCoef_of_coef_zero_left fun i _ => ht i]
    · have := h.within
      exact coef_of_deg_lt (by omega)
  have top := h.inv.cross n
  rw [(monicOfDegree_zeros_append_one n).top, crossCoef, convCoef_of_coef_zero_left fun i _ => hr i,
    convCoef_of_coef_zero_left fun i _ => ht i] at top
  exact absurd top (by decide)

/-- The locator's degree and the other remainder's, which is above the bound, add up to at most n (R141(e)). -/
theorem EuclidResult.deg_locator_le {s : Nat} (h : EuclidResult n (euclidBound n s) product p o) (hn : 1 ≤ n)
    (hs : s ≤ n) : s + deg p.t ≤ n := by
  have hsum := h.inv.degrees.left
  have habove := h.above
  have hbound := euclidBound_succ hn hs
  omega

end

section
variable {s : State} {n c : Byte}

theorem parityInRange_iff : parityInRange n = true ↔ 1 ≤ n.toNat ∧ n.toNat ≤ 254 := by
  simp only [parityInRange, Bool.and_eq_true, decide_eq_true_eq]

/-- What EUCLID answers, as the two normal forms (R142). -/
theorem exec_euclid_of_tablesBuilt (hb : TablesBuilt s) (hn : parityInRange n = true) (hc : c.toNat ≤ n.toNat)
    (product : List Byte) :
    exec (.euclid n c product) s = .next (s.answered .ok
      (polyField (trim (euclid builtField product n.toNat c.toNat).r) ++
        polyField (trim (euclid builtField product n.toNat c.toNat).t))) := by
  rw [exec_euclid_of_le hb.initd hn hc, field_of_tablesBuilt hb]
  rfl

theorem readFields_euclid_ne {rest : List Byte} (hn : parityInRange n = true)
    (h : ∀ c p, polyFits p = true → rest ≠ c :: polyField p) (i : Instr) :
    readFields .euclid (n :: rest) ≠ some (i, []) := by
  refine withParity_ne_of_legal fun n' rest' hf => ?_
  cases hf
  refine ⟨hn, fun hr => ?_⟩
  obtain ⟨c, _, rfl, hr⟩ := withByte_eq_some hr
  obtain ⟨p, left, rfl, hp, hr⟩ := withPoly_eq_some hr
  cases hr
  exact h c p hp (by rw [List.append_nil])

end

/-- Settles O38: the loop ends within the bound, and the invariant of its pairs gives the key equation, the degrees and,
through the cross product, that the locator is not zero. -/
theorem euclidSolvesTheKeyEquation : Obligations.EuclidSolvesTheKeyEquation := by
  intro s n c product hb hn hc
  obtain ⟨hlo, -⟩ := parityInRange_iff.mp hn
  obtain ⟨other, result⟩ := exists_euclidResult product hlo hc
  refine ⟨_, _, exec_euclid_of_tablesBuilt hb hn hc product, trim_trim _, trim_trim _, ?_, ?_, ?_, fun j hj => ?_⟩
  · rw [lead_trim]
    exact result.lead_ne_zero (euclidBound_lt hlo hc)
  · rw [deg_trim]
    exact result.within
  · rw [deg_trim]
    exact result.deg_locator_le hlo hc
  · rw [convCoef_trim_left, coef_trim]
    exact result.inv.left j hj

/-- Settles O39: pair 1 meets the bound at the start, and its cofactor is 1. -/
theorem euclidReturnsASmallProductAtOnce : Obligations.EuclidReturnsASmallProductAtOnce := by
  intro s n c product hb hn hc hdeg
  have atOnce : euclid builtField product n.toNat c.toNat = productPair product n.toNat := by
    rw [euclid_eq, if_pos ((deg_productPair product n.toNat).trans_le hdeg)]
  rw [exec_euclid_of_tablesBuilt hb hn hc, atOnce, productPair, trim_trim]
  rfl

/-- Settles O40: s is compared with n before the product is looked at, and the packet's checks come in R173's order. -/
theorem euclidOutcomesWithoutAResult : Obligations.EuclidOutcomesWithoutAResult := by
  refine fun s => ⟨fun hs n c product hn hc => exec_euclid_of_gt hs hn hc product,
    fun hs => packetAnswers_of_not_initd (op := .euclid) hs Opcode.noConfusion, fun hs n rest hn => ?_, fun hs => ?_,
    fun hs n rest hn hf => packetAnswers_of_wrong_length (op := .euclid) (by simp [hs]) (readFields_euclid_ne hn hf)⟩
  · exact packetAnswers_of_illegal_parity (op := .euclid) hs hn Opcode.noConfusion (withParity_of_illegal hn _ _)
      fun _ => rfl
  · exact packetAnswers_of_wrong_length (op := .euclid) (by simp [hs]) fun _ => nofun

end Sys2Proof.Machine

/-! PROOFS. What `find_errors` finds (spec 45_forney.md R150, R151), and through it what DECODE answers (46_decode.md
R160, R161): the algorithm's own locators and evaluator are those that ERALOC, SYND and EUCLID answer. -/

namespace Sys2Proof.Machine

/-! ### The derivative of sigma -/

theorem gfSum_two_mul (k : Nat) (f : Nat → Byte) :
    gfSum (2 * k) f = gfSum k fun m => f (2 * m) ^^^ f (2 * m + 1) := by
  induction k with
  | zero => rfl
  | succ k ih => rw [Nat.mul_succ, gfSum_succ, gfSum_succ, gfSum_succ, ih, BitVec.xor_assoc]

theorem gfPow_mulBitwise_self (x : Byte) (m : Nat) : gfPow (mulBitwise x x) m = gfPow x (2 * m) := by
  induction m with
  | zero => rfl
  | succ m ih => rw [gfPow_succ, ih, Nat.mul_succ, gfPow_succ, gfPow_succ, mulBitwise_assoc]

theorem coef_map_range (f : Nat → Byte) (k j : Nat) :
    coef ((List.range k).map f) j = if j < k then f j else 0x00#8 := by
  split
  · next h => rw [coef, List.getD, List.getElem?_map, List.getElem?_range h]; rfl
  · next h => exact coef_of_length_le (by simpa using h)

/-- The odd-indexed coefficients, re-indexed (R150). -/
theorem coef_deltaSigma (sigma : List Byte) (m : Nat) : coef (deltaSigma sigma) m = coef sigma (2 * m + 1) := by
  unfold deltaSigma
  split
  · rw [coef_of_length_le (p := sigma) (by omega)]
    exact coef_zeros 1 m
  · rw [coef_trim, coef_map_range]
    split
    · rfl
    · exact (coef_of_length_le (by omega)).symm

/-- Evaluated at x², the odd-indexed coefficients give the derivative: the even indices add nothing, and (x²)^m is
x^(2m) (R150). -/
theorem evaluate_deltaSigma (sigma : List Byte) (x : Byte) :
    evaluate builtField (deltaSigma sigma) (mulBitwise x x) = derivValue sigma x := by
  have hd : (deltaSigma sigma).length ≤ (deltaSigma sigma).length + sigma.length := Nat.le_add_right _ _
  have hs : sigma.length ≤ 2 * ((deltaSigma sigma).length + sigma.length) := by omega
  rw [evaluate_eq_polyValue, polyValue_eq_gfSum hd, derivValue, ← gfSum_eq_of_le hs, gfSum_two_mul]
  · refine gfSum_congr fun m _ => ?_
    rw [if_neg (by omega), if_pos (by omega), BitVec.zero_xor, coef_deltaSigma, gfPow_mulBitwise_self,
      Nat.add_sub_cancel]
  · intro j hj _
    rw [coef_of_length_le hj, mulBitwise_zero_left, ite_self]

/-! ### The entries of the roots -/

theorem rootPosition_zero : rootPosition builtField 0x00#8 = 0 := by
  rw [rootPosition, builtField_mul, logA_zero]

theorem rootPosition_lt (x : Byte) : rootPosition builtField x < 255 := Nat.mod_lt _ (by decide)

/-- The root of a position is the inverse of a^position (R151(a)). -/
theorem aPow_rootPosition {x : Byte} (hx : x ≠ 0x00#8) :
    mulBitwise (aPow (rootPosition builtField x)) x = 0x01#8 := by
  have hl := logA_lt hx
  have hsum : 255 ∣ rootPosition builtField x + logA mulBitwise x := by
    rw [rootPosition, builtField_mul]
    omega
  calc mulBitwise (aPow (rootPosition builtField x)) x
      = mulBitwise (aPow (rootPosition builtField x)) (aPow (logA mulBitwise x)) := by rw [aPow_logA hx]
    _ = aPow (rootPosition builtField x + logA mulBitwise x) := (gfPow_add _ _ _).symm
    _ = 0x01#8 := (aPow_eq_one_iff _).mpr hsum

theorem rootValue_builtField (sigma omega : List Byte) (x : Byte) :
    rootValue builtField sigma omega x =
      mulBitwise (mulBitwise (gfPow x 111) (polyValue omega x)) (gfPow (derivValue sigma x) 254) := by
  rw [rootValue, builtField_mul, pow111_eq_gfPow, evaluate_eq_polyValue, evaluate_deltaSigma]
  exact congrArg _ (invChain_eq_gfPow _)

/-- The entry of a root as bytes (R151). -/
def correctionOf (sigma omega : List Byte) (x : Byte) : Byte × Byte :=
  (byteOf (rootPosition builtField x), rootValue builtField sigma omega x)

theorem toNat_byteOf {k : Nat} (h : k < 256) : (byteOf k).toNat = k :=
  (BitVec.toNat_ofNat k 8).trans (Nat.mod_eq_of_lt h)

theorem toNat_correctionOf (sigma omega : List Byte) (x : Byte) :
    (correctionOf sigma omega x).1.toNat = rootPosition builtField x :=
  toNat_byteOf ((rootPosition_lt x).trans (by decide))

theorem isCorrection_correctionOf (sigma omega : List Byte) (x : Byte) :
    IsCorrection sigma omega x (correctionOf sigma omega x) := by
  refine ⟨?_, fun hx => ?_, rootValue_builtField sigma omega x⟩
  · rintro rfl
    exact congrArg byteOf rootPosition_zero
  · rw [toNat_correctionOf]
    exact ⟨rootPosition_lt x, aPow_rootPosition hx⟩

theorem forall₂_isCorrection (sigma omega roots : List Byte) :
    List.Forall₂ (IsCorrection sigma omega) roots (roots.map (correctionOf sigma omega)) :=
  List.forall₂_map_right_iff.mpr (List.forall₂_same.mpr fun x _ => isCorrection_correctionOf sigma omega x)

/-! ### The search -/

theorem rootsOf_builtField (sigma : List Byte) : rootsOf builtField sigma = rootList sigma := by
  simp only [rootsOf, rootList, evaluate_eq_polyValue]

section
variable {sigma omega : List Byte} {declared : Nat}

theorem findErrors_of_length_eq (h : (rootList sigma).length = declared) :
    findErrors builtField sigma omega declared =
      some ((rootList sigma).map fun x => (rootPosition builtField x, rootValue builtField sigma omega x)) := by
  simp only [findErrors, rootsOf_builtField, List.length_map, h, ne_eq, not_true_eq_false, if_false]

theorem findErrors_of_length_ne (h : (rootList sigma).length ≠ declared) :
    findErrors builtField sigma omega declared = none := by
  simp only [findErrors, rootsOf_builtField, List.length_map, ne_eq, h, not_false_eq_true, if_true]

end

/-! ### The decoding algorithm -/

section
variable {received mask : List Byte} {n : Nat}

/-- The product that `decode` gives to `euclid` (46_decode.md R160). -/
def decodeProduct (received mask : List Byte) (n : Nat) : List Byte :=
  multiply builtField (erasureLocator builtField mask).1 (syndromes builtField received n)

/-- The evaluator and the error locator that `decode` computes with (R160). -/
def decodePair (received mask : List Byte) (n : Nat) : EuclidPair :=
  euclid builtField (decodeProduct received mask n) n (erasureCount mask)

/-- The combined locator whose roots `decode` searches (R160). -/
def decodeSigma (received mask : List Byte) (n : Nat) : List Byte :=
  multiply builtField (erasureLocator builtField mask).1 (decodePair received mask n).t

/-- The number of located positions that `decode` expects (R160(d)). -/
def decodeCount (received mask : List Byte) (n : Nat) : Nat :=
  deg (decodePair received mask n).t + erasureCount mask

/-- The first early exit (R160(a)). -/
theorem rsDecode_of_too_many (hm : mask.length = 255) (h : erasureCount mask > n) :
    rsDecode builtField received mask n = none := by
  simp only [rsDecode, erasureLocator_count hm, if_pos h]

theorem rsDecode_of_findErrors_none (hm : mask.length = 255) (hle : erasureCount mask ≤ n)
    (h : findErrors builtField (decodeSigma received mask n) (decodePair received mask n).r
      (decodeCount received mask n) = none) : rsDecode builtField received mask n = none := by
  simp only [decodeSigma, decodeCount, decodePair, decodeProduct] at h
  simp only [rsDecode, erasureLocator_count hm, if_neg (Nat.not_lt.mpr hle), h]

theorem rsDecode_of_findErrors_some (hm : mask.length = 255) (hle : erasureCount mask ≤ n)
    {found : List (Nat × Byte)} (h : findErrors builtField (decodeSigma received mask n) (decodePair received mask n).r
      (decodeCount received mask n) = some found) :
    rsDecode builtField received mask n =
      some (found.foldl (fun out pv => xorAt out pv.1 pv.2) received, found.length) := by
  simp only [decodeSigma, decodeCount, decodePair, decodeProduct] at h
  simp only [rsDecode, erasureLocator_count hm, if_neg (Nat.not_lt.mpr hle), h]

/-- The second early exit: the number of roots is not the expected one (R160). -/
theorem rsDecode_of_other_roots (hm : mask.length = 255) (hle : erasureCount mask ≤ n)
    (h : (rootList (decodeSigma received mask n)).length ≠ decodeCount received mask n) :
    rsDecode builtField received mask n = none :=
  rsDecode_of_findErrors_none hm hle (findErrors_of_length_ne h)

/-- With the expected number of roots, every entry is applied (R160(c)). -/
theorem rsDecode_of_roots (hr : received.length = 255) (hm : mask.length = 255) (hle : erasureCount mask ≤ n)
    (h : (rootList (decodeSigma received mask n)).length = decodeCount received mask n) :
    rsDecode builtField received mask n = some (corrected received ((rootList (decodeSigma received mask n)).map
      (correctionOf (decodeSigma received mask n) (decodePair received mask n).r)), decodeCount received mask n) := by
  rw [rsDecode_of_findErrors_some hm hle (findErrors_of_length_eq h), List.length_map, h, List.foldl_map,
    ← foldl_xorAt_eq_corrected _ hr, List.foldl_map]
  simp only [toNat_correctionOf]
  rfl

end

/-! ### DECODE -/

theorem polyValue_trim (p : List Byte) (x : Byte) : polyValue (trim p) x = polyValue p x := by
  have h := polyValue_of_coef_xor (p := p) (q := []) (r := trim p) (fun j => by simp) x
  rwa [show polyValue [] x = 0x00#8 from rfl, BitVec.xor_zero] at h

theorem IsCorrection.trim_omega {sigma omega : List Byte} {x : Byte} {entry : Byte × Byte}
    (h : IsCorrection sigma omega x entry) : IsCorrection sigma (trim omega) x entry := by
  obtain ⟨atZero, nonZero, value⟩ := h
  exact ⟨atZero, nonZero, by rw [value, polyValue_trim]⟩

/-- Of a product EUCLID needs the n lowest coefficients only (44_euclid.md R141(f)). -/
theorem euclid_map_convCoef (p q : List Byte) (n s : Nat) :
    euclid builtField ((List.range n).map (convCoef p q)) n s = euclid builtField (multiply builtField p q) n s :=
  euclid_congr builtField (fun j hj => by rw [coef_map_range, if_pos hj, coef_multiply]) s

section
variable {s : State} {n : Byte} {received mask : List Byte}

theorem exec_eraloc_of_tablesBuilt (hb : TablesBuilt s) (hm : mask.length = 255) :
    exec (.eraloc mask) s = .next (s.answered .ok
      (byteOf (erasureCount mask) :: polyField (erasureLocator builtField mask).1)) := by
  rw [exec_eraloc_of_legal hb.initd hm, field_of_tablesBuilt hb, erasureLocator_count hm, normalField,
    (monicOfDegree_erasureLocator builtField mask).trim_eq]
  rfl

theorem exec_synd_of_tablesBuilt (hb : TablesBuilt s) (hn : parityInRange n = true) (hr : received.length = 255) :
    exec (.synd n received) s = .next (s.answered .ok (syndromes builtField received n.toNat)) := by
  rw [exec_synd_of_legal hb.initd hn hr, field_of_tablesBuilt hb]
  rfl

/-- EUCLID answers the pair that `decode` computes with (46_decode.md R160). -/
theorem exec_euclid_decodePair (hb : TablesBuilt s) (hn : parityInRange n = true) (hle : erasureCount mask ≤ n.toNat) :
    exec (.euclid n (byteOf (erasureCount mask)) ((List.range n.toNat).map
        (convCoef (erasureLocator builtField mask).1 (syndromes builtField received n.toNat)))) s
      = .next (s.answered .ok (polyField (trim (decodePair received mask n.toNat).r) ++
          polyField (trim (decodePair received mask n.toNat).t))) := by
  have count : (byteOf (erasureCount mask)).toNat = erasureCount mask := toNat_byteOf (hle.trans_lt n.isLt)
  rw [exec_euclid_of_tablesBuilt hb hn (count.trans_le hle), count, euclid_map_convCoef]
  rfl

/-- What `decode` finds is what DECODE answers (46_decode.md R161). -/
theorem exec_decode_of_rsDecode_some (hb : TablesBuilt s) (hn : parityInRange n = true) (hr : received.length = 255)
    (hm : mask.length = 255) {out : List Byte} {count : Nat}
    (h : rsDecode builtField received mask n.toNat = some (out, count)) :
    exec (.decode n received mask) s = .next (s.answered .ok (byteOf count :: out)) :=
  exec_decode_of_some hb.initd hn hr hm (by rw [field_of_tablesBuilt hb, h])

theorem exec_decode_of_rsDecode_none (hb : TablesBuilt s) (hn : parityInRange n = true) (hr : received.length = 255)
    (hm : mask.length = 255) (h : rsDecode builtField received mask n.toNat = none) :
    exec (.decode n received mask) s = .next (s.answered .uncorrectable received) :=
  exec_decode_of_none hb.initd hn hr hm (by rw [field_of_tablesBuilt hb, h])

end

/-- Settles O43: the algorithm computes with what ERALOC, SYND and EUCLID answer, EUCLID's pair is within its bounds,
and the received word comes back unchanged only at the two early exits. -/
theorem decodeAnswersAWholeWordOrTheReceivedOne : Obligations.DecodeAnswersAWholeWordOrTheReceivedOne := by
  intro s n received mask hb hn hr hm
  refine ⟨fun hgt => exec_decode_of_rsDecode_none hb hn hr hm (rsDecode_of_too_many hm hgt), fun hle => ?_⟩
  obtain ⟨hlo, -⟩ := parityInRange_iff.mp hn
  have bound := euclidBound_lt hlo hle
  obtain ⟨other, result⟩ := exists_euclidResult (decodeProduct received mask n.toNat) hlo hle
  refine ⟨_, _, _, _, decodeSigma received mask n.toNat, exec_eraloc_of_tablesBuilt hb hm,
    exec_synd_of_tablesBuilt hb hn hr, exec_euclid_decodePair hb hn hle, trim_trim _, ?_, trim_trim _, ?_, ?_,
    trim_multiply _ _ _, fun k => ?_, ?_⟩
  · rw [deg_trim]
    exact result.within.trans_lt bound
  · rw [lead_trim]
    exact result.lead_ne_zero bound
  · rw [deg_trim, Nat.add_comm]
    exact result.deg_locator_le hlo hle
  · rw [decodeSigma, coef_multiply, convCoef_trim_right]
  · rw [deg_trim]
    refine ⟨fun hroots => ⟨_, ?_, exec_decode_of_rsDecode_some hb hn hr hm (rsDecode_of_roots hr hm hle hroots)⟩,
      fun hroots => exec_decode_of_rsDecode_none hb hn hr hm (rsDecode_of_other_roots hm hle hroots)⟩
    exact (forall₂_isCorrection _ _ _).imp fun _ _ h => h.trim_omega

end Sys2Proof.Machine

/-! PROOFS. FINDERR and the derivative (spec 45_forney.md R150 to R152): the search of `find_errors` answers one entry for
each root of sigma, and their number decides the status. -/

namespace Sys2Proof.Machine

/-- Settles O41: the two lemmas on `delta_sigma`, one on its value and one on its coefficients. -/
theorem deltaSigmaIsTheDerivative : Obligations.DeltaSigmaIsTheDerivative :=
  fun sigma x => ⟨evaluate_deltaSigma sigma x, coef_deltaSigma sigma⟩

/-! ### FINDERR -/

section
variable {s : State} {d : Byte} {sigma : List Byte}

/-- With the declared number of roots, FINDERR answers their number and their entries (R152). -/
theorem exec_finderr_of_roots (hb : TablesBuilt s) (h : (rootList sigma).length = d.toNat) (omega : List Byte) :
    exec (.finderr d sigma omega) s = .next (s.answered .ok
      (d :: ((rootList sigma).map (correctionOf sigma omega)).flatMap fun e => [e.1, e.2])) := by
  have search : findErrors s.field sigma omega d.toNat = some ((rootList sigma).map fun x =>
      (rootPosition builtField x, rootValue builtField sigma omega x)) := by
    rw [field_of_tablesBuilt hb, findErrors_of_length_eq h]
  rw [exec_finderr_of_some hb.initd search, List.length_map, h, byteOf_toNat, List.flatMap_map, List.flatMap_map]
  rfl

/-- With any other number of roots there is no payload (R152). -/
theorem exec_finderr_of_other_roots (hb : TablesBuilt s) (h : (rootList sigma).length ≠ d.toNat) (omega : List Byte) :
    exec (.finderr d sigma omega) s = .next (s.answered .uncorrectable []) :=
  exec_finderr_of_none hb.initd <| by rw [field_of_tablesBuilt hb, findErrors_of_length_ne h]

end

theorem readFields_finderr_ne {fields : List Byte}
    (h : ∀ d p q, polyFits p = true → polyFits q = true → fields ≠ d :: (polyField p ++ polyField q)) (i : Instr) :
    readFields .finderr fields ≠ some (i, []) := by
  intro hr
  obtain ⟨d, _, rfl, hr⟩ := withByte_eq_some hr
  obtain ⟨p, _, rfl, hp, hr⟩ := withPoly_eq_some hr
  obtain ⟨q, rest, rfl, hq, hr⟩ := withPoly_eq_some hr
  cases hr
  exact h d p q hp hq (by rw [List.append_nil])

/-- Settles O42: the entries that FINDERR answers are the corrections of the roots, in the order of the search. -/
theorem finderrAnswersTheRoots : Obligations.FinderrAnswersTheRoots :=
  fun s => ⟨fun hb _ sigma omega h => ⟨_, forall₂_isCorrection sigma omega _, exec_finderr_of_roots hb h omega⟩,
    fun hb _ _ omega h => exec_finderr_of_other_roots hb h omega,
    fun hs => packetAnswers_of_not_initd (op := .finderr) hs Opcode.noConfusion,
    fun hs _ hf => packetAnswers_of_wrong_length (op := .finderr) (by simp [hs]) (readFields_finderr_ne hf)⟩

end Sys2Proof.Machine

/-! PROOFS. What DECODE answers without correcting anything (spec 46_decode.md R160(a), R161; 60_exceptions.md R173). -/

namespace Sys2Proof.Machine

theorem readFields_decode_ne {n : Byte} {rest : List Byte} (hn : parityInRange n = true) (hl : rest.length ≠ 510)
    (i : Instr) : readFields .decode (n :: rest) ≠ some (i, []) := by
  refine withParity_ne_of_legal fun n' rest' hf => ?_
  cases hf
  refine ⟨hn, fun hr => ?_⟩
  obtain ⟨received, tail, rfl, hreceived, hr⟩ := withBytes_eq_some hr
  refine withBytes_ne_of_length (fun hmask => hl ?_) (Instr.decode n received) i hr
  rw [List.length_append, hreceived, hmask]

/-- Settles O44: more than n erasures are the first early exit, and the packet's checks come in R173's order. -/
theorem decodeOutcomesWithoutCorrection : Obligations.DecodeOutcomesWithoutCorrection := by
  refine fun s => ⟨fun hb n received mask hn hr hm hgt => ?_,
    fun hs => packetAnswers_of_not_initd (op := .decode) hs Opcode.noConfusion, fun hs n rest hn => ?_, fun hs => ?_,
    fun hs n rest hn hl => packetAnswers_of_wrong_length (op := .decode) (by simp [hs]) (readFields_decode_ne hn hl)⟩
  · exact exec_decode_of_rsDecode_none hb hn hr hm (rsDecode_of_too_many hm hgt)
  · exact packetAnswers_of_illegal_parity (op := .decode) hs hn Opcode.noConfusion (withParity_of_illegal hn _ _)
      fun _ => rfl
  · exact packetAnswers_of_wrong_length (op := .decode) (by simp [hs]) fun _ => nofun

end Sys2Proof.Machine

/-! PROOFS. The bytes as a field of Mathlib (spec 40_field.md R90, R99), and coefficient lists as polynomials over it
(00_scope.md R11). The model's own `Field`, a record of table contents, is hidden in this namespace. -/

namespace Sys2Proof.Correction

open Sys2Proof.Machine hiding Field
open Polynomial

/-! ### The bytes as field elements -/

/-- A reading of the bytes as elements of a field, in which xor is addition and `mul_bitwise` multiplication. -/
structure ByteEmbedding {K : Type} [Field K] (φ : Byte → K) : Prop where
  injective : Function.Injective φ
  map_xor : ∀ a b, φ (a ^^^ b) = φ a + φ b
  map_mul : ∀ a b, φ (mulBitwise a b) = φ a * φ b
  map_one : φ 0x01#8 = 1

/-- The bytes under a name of their own, apart from the machine arithmetic of `BitVec`. -/
def FieldByte : Type := Byte

/-- The laws of R99 are those of a field. -/
@[reducible] def fieldOfBytes : Field FieldByte :=
  letI : Add FieldByte := ⟨fun a b : Byte => a ^^^ b⟩
  letI : Mul FieldByte := ⟨mulBitwise⟩
  letI : Neg FieldByte := ⟨id⟩
  letI : Inv FieldByte := ⟨fun a => gfPow a 254⟩
  letI : Zero FieldByte := ⟨(0x00#8 : Byte)⟩
  letI : One FieldByte := ⟨(0x01#8 : Byte)⟩
  Field.ofMinimalAxioms FieldByte BitVec.xor_assoc (fun _ => BitVec.zero_xor) (fun _ => BitVec.xor_self)
    mulBitwise_assoc mulBitwise_comm mulBitwise_one_left (fun _ => mulBitwise_gfPow_254)
    (gfPow_zero_left (by decide)) mulBitwise_xor_right
    ⟨(0x00#8 : Byte), (0x01#8 : Byte), (by decide : (0x00#8 : Byte) ≠ 0x01#8)⟩

theorem exists_byteEmbedding : ∃ (K : Type) (_ : Field K) (φ : Byte → K), ByteEmbedding φ :=
  letI := fieldOfBytes
  ⟨FieldByte, fieldOfBytes, id, Function.injective_id, fun _ _ => rfl, fun _ _ => rfl, rfl⟩

namespace ByteEmbedding

variable {K : Type} [Field K] {φ : Byte → K} (h : ByteEmbedding φ)
include h

theorem map_zero : φ 0x00#8 = 0 := by
  have := h.map_xor 0x00#8 0x00#8
  rwa [BitVec.xor_self, left_eq_add] at this

theorem eq_zero_iff {b : Byte} : φ b = 0 ↔ b = 0x00#8 := by rw [← h.map_zero, h.injective.eq_iff]

/-- The xor of a byte with itself is 0x00 (R99(h)). -/
theorem charP_two : CharP K 2 := by
  refine CharTwo.of_one_ne_zero_of_two_eq_zero one_ne_zero ?_
  rw [← one_add_one_eq_two, ← h.map_one, ← h.map_xor, BitVec.xor_self, h.map_zero]

theorem map_gfPow (x : Byte) (e : Nat) : φ (gfPow x e) = φ x ^ e := by
  induction e with
  | zero => rw [pow_zero]; exact h.map_one
  | succ e ih => rw [gfPow_succ, h.map_mul, ih, pow_succ]

theorem map_aPow (e : Nat) : φ (aPow e) = φ 0xAC#8 ^ e := h.map_gfPow 0xAC#8 e

theorem map_gfSum (k : Nat) (f : Nat → Byte) : φ (gfSum k f) = ∑ j ∈ Finset.range k, φ (f j) := by
  induction k with
  | zero => exact h.map_zero
  | succ k ih => rw [gfSum_succ, h.map_xor, ih, Finset.sum_range_succ]

end ByteEmbedding

/-! ### Coefficient lists as polynomials -/

section
variable {K : Type} [Field K] (φ : Byte → K)

/-- The polynomial with the coefficients of a list. -/
noncomputable def toPoly (p : List Byte) : K[X] := ∑ j ∈ Finset.range p.length, C (φ (coef p j)) * X ^ j

variable {φ} (h : ByteEmbedding φ)
include h

theorem coeff_toPoly (p : List Byte) (j : Nat) : (toPoly φ p).coeff j = φ (coef p j) := by
  simp only [toPoly, finsetSum_coeff, coeff_C_mul_X_pow, Finset.sum_ite_eq, Finset.mem_range]
  split
  · rfl
  · next hj => rw [coef_of_length_le (Nat.not_lt.mp hj), h.map_zero]

theorem natDegree_toPoly (p : List Byte) : (toPoly φ p).natDegree = deg p := by
  have above : (toPoly φ p).natDegree ≤ deg p := natDegree_le_iff_coeff_eq_zero.mpr fun j hj => by
    rw [coeff_toPoly h, coef_of_deg_lt hj, h.map_zero]
  by_cases hd : deg p = 0
  · omega
  · refine natDegree_eq_of_le_of_coeff_ne_zero above ?_
    rw [coeff_toPoly h, Ne, h.eq_zero_iff]
    exact lead_ne_zero hd

theorem eval_toPoly (p : List Byte) (x : Byte) : (toPoly φ p).eval (φ x) = φ (polyValue p x) := by
  simp only [toPoly, polyValue, eval_finsetSum, eval_C_mul, eval_X_pow, h.map_gfSum, h.map_mul, h.map_gfPow]

/-- In characteristic 2 the even exponents vanish from the derivative (45_forney.md R150). -/
theorem eval_derivative_toPoly (p : List Byte) (x : Byte) :
    (derivative (toPoly φ p)).eval (φ x) = φ (derivValue p x) := by
  have := h.charP_two
  simp only [toPoly, derivValue, derivative_sum, derivative_C_mul_X_pow, eval_finsetSum, eval_C_mul, eval_X_pow,
    h.map_gfSum]
  refine Finset.sum_congr rfl fun j _ => ?_
  rw [CharTwo.natCast_eq_mod]
  obtain hj | hj := Nat.mod_two_eq_zero_or_one j
  · rw [hj, if_neg Nat.zero_ne_one, h.map_zero, Nat.cast_zero, mul_zero, zero_mul]
  · rw [hj, if_pos rfl, h.map_mul, h.map_gfPow, Nat.cast_one, mul_one]

theorem coeff_toPoly_mul (p q : List Byte) (k : Nat) :
    (toPoly φ p * toPoly φ q).coeff k = φ (convCoef p q k) := by
  rw [coeff_mul, Finset.Nat.sum_antidiagonal_eq_sum_range_succ_mk, convCoef, h.map_gfSum]
  simp only [coeff_toPoly h, h.map_mul]

theorem toPoly_multiply (p q : List Byte) : toPoly φ (multiply builtField p q) = toPoly φ p * toPoly φ q := by
  ext k
  rw [coeff_toPoly h, coeff_toPoly_mul h, coef_multiply]

theorem toPoly_mulByRoot (g : List Byte) (root : Byte) :
    toPoly φ (mulByRoot builtField g root) = toPoly φ g * (X - C (φ root)) := by
  have := h.charP_two
  ext j
  rw [coeff_toPoly h, coef_mulByRoot_builtField, h.map_xor, h.map_mul, CharTwo.sub_eq_add, mul_add, coeff_add,
    coeff_mul_C, coeff_toPoly h, mul_comm (φ root)]
  congr 1
  cases j with
  | zero => rw [if_pos rfl, h.map_zero, coeff_mul_X_zero]
  | succ j => rw [if_neg (Nat.succ_ne_zero j), coeff_mul_X, coeff_toPoly h, Nat.add_sub_cancel]

theorem toPoly_zeros_append_one (n : Nat) : toPoly φ (zeros n ++ [0x01#8]) = X ^ n := by
  have monic := monicOfDegree_zeros_append_one n
  ext j
  rw [coeff_toPoly h, coeff_X_pow]
  split
  · next hj => rw [hj, monic.top, h.map_one]
  · next hj =>
    refine h.eq_zero_iff.mpr ?_
    obtain hlt | hgt := Nat.lt_or_gt_of_ne hj
    · rw [coef_zeros_append, if_pos hlt]
    · exact coef_of_deg_lt (by rwa [monic.deg_eq])

/-- R141(b): the key equation between a remainder and its cofactor. -/
theorem dvd_of_keyEquation {n : Nat} {product : List Byte} {p : EuclidPair} (hp : KeyEquation n product p) :
    X ^ n ∣ toPoly φ p.t * toPoly φ product - toPoly φ p.r :=
  X_pow_dvd_iff.mpr fun j hj => by rw [coeff_sub, coeff_toPoly_mul h, hp j hj, coeff_toPoly h, sub_self]

theorem toPoly_cross {n : Nat} {product : List Byte} {p o : EuclidPair} (hp : EuclidInv n product p o) :
    toPoly φ p.r * toPoly φ o.t - toPoly φ p.t * toPoly φ o.r = X ^ n := by
  have := h.charP_two
  ext j
  rw [CharTwo.sub_eq_add, coeff_add, coeff_toPoly_mul h, coeff_toPoly_mul h, ← h.map_xor, ← crossCoef, hp.cross,
    ← coeff_toPoly h, toPoly_zeros_append_one h]

end

end Sys2Proof.Correction

/-! PROOFS. The key equation over any field: the locator of the errors and their evaluator solve it (spec 44_euclid.md
R141, R143), and within the degrees that the bounded stop leaves, a pair that `euclid` can return is a multiple of
theirs by a constant. -/

namespace Sys2Proof.Correction

open Polynomial Lagrange

section
variable {K : Type} [Field K]

/-! ### Two solutions of one key equation -/

/-- Two pairs that solve the same key equation have a cross product that vanishes below x^n. -/
theorem dvd_cross_of_dvd {n : Nat} {S t r t' r' : K[X]} (h : X ^ n ∣ t * S - r) (h' : X ^ n ∣ t' * S - r') :
    X ^ n ∣ t * r' - t' * r := by
  have combination : t * r' - t' * r = t' * (t * S - r) - t * (t' * S - r') := by ring
  exact combination ▸ dvd_sub (h.mul_left t') (h'.mul_left t)

/-- The pair (t, r) is a multiple of a coprime solution (L, W) of small degree: their cross product is zero, so that L
divides t; and the quotient is constant because it divides x^n, the cross product of (t, r) with a third solution
(t', r'), while that of (L, W) with the same one already has the factor x^n. -/
theorem exists_scale_of_solutions {n : Nat} {S L W t r t' r' : K[X]} (hL : X ^ n ∣ L * S - W)
    (ht : X ^ n ∣ t * S - r) (ht' : X ^ n ∣ t' * S - r') (hcross : r * t' - t * r' = X ^ n) (hLW : IsCoprime L W)
    (hne : L ≠ 0) (htW : (t * W).natDegree < n) (hLr : (L * r).natDegree < n) :
    ∃ c, c ≠ 0 ∧ t = C c * L ∧ r = C c * W := by
  have agree : t * W = L * r := by
    refine sub_eq_zero.mp (eq_zero_of_dvd_of_natDegree_lt (dvd_cross_of_dvd ht hL) ?_)
    rw [natDegree_X_pow]
    exact (natDegree_sub_le _ _).trans_lt (max_lt htW hLr)
  obtain ⟨q, rfl⟩ : L ∣ t := hLW.dvd_of_dvd_mul_right (Dvd.intro _ agree.symm)
  obtain rfl : q * W = r := mul_left_cancel₀ hne (by rw [← mul_assoc, agree])
  obtain ⟨u, hu⟩ := dvd_cross_of_dvd hL ht'
  have unit : q * -u = 1 := by
    refine mul_left_cancel₀ (pow_ne_zero n (X_ne_zero (R := K))) ?_
    linear_combination hcross + q * hu
  obtain ⟨c, hc, rfl⟩ := isUnit_iff.mp (IsUnit.of_mul_eq_one _ unit)
  exact ⟨c, hc.ne_zero, mul_comm _ _, rfl⟩

/-! ### The evaluator of the errors -/

/-- The evaluator of values w at the nodes v of the positions P: the sum of w_i times the product of x - v_j over the
other positions j. (The locator, the product over all of P, is Mathlib's `Lagrange.nodal P v`.) -/
noncomputable def evaluator (P : Finset Nat) (v w : Nat → K) : K[X] := ∑ i ∈ P, C (w i) * nodal (P.erase i) v

variable {P : Finset Nat} {v w : Nat → K}

theorem natDegree_evaluator_le : (evaluator P v w).natDegree ≤ P.card - 1 := by
  refine natDegree_sum_le_of_forall_le P _ fun i hi => (natDegree_C_mul_le _ _).trans ?_
  rw [natDegree_nodal, Finset.card_erase_of_mem hi]

/-- At a node only that node's own summand is left. -/
theorem eval_evaluator {i : Nat} (hi : i ∈ P) :
    (evaluator P v w).eval (v i) = w i * (nodal (P.erase i) v).eval (v i) := by
  rw [evaluator, eval_finsetSum, Finset.sum_eq_single_of_mem i hi fun j _ hj => ?_, eval_C_mul]
  rw [eval_C_mul, eval_nodal_at_node (Finset.mem_erase.mpr ⟨hj.symm, hi⟩), mul_zero]

theorem eval_nodal_erase_ne_zero (hv : Set.InjOn v P) {i : Nat} (hi : i ∈ P) :
    (nodal (P.erase i) v).eval (v i) ≠ 0 := by
  refine eval_nodal_not_at_node fun j hj heq => ?_
  obtain ⟨hne, hj⟩ := Finset.mem_erase.mp hj
  exact hne (hv hj hi heq.symm)

/-- Where the values are not zero, the evaluator has no root among the nodes. -/
theorem isCoprime_nodal_evaluator (hv : Set.InjOn v P) {T : Finset Nat} (hT : T ⊆ P) (hw : ∀ i ∈ T, w i ≠ 0) :
    IsCoprime (nodal T v) (evaluator P v w) := by
  refine IsCoprime.prod_left fun i hi => ?_
  rw [(irreducible_X_sub_C (v i)).coprime_iff_not_dvd, dvd_iff_isRoot, IsRoot, eval_evaluator (hT hi)]
  exact mul_ne_zero (hw i hi) (eval_nodal_erase_ne_zero hv (hT hi))

/-! ### The key equation of the locator -/

/-- The n lowest terms of the power series of -1 / (x - b), where a is the inverse of b. -/
noncomputable def geometricSeries (n : Nat) (a : K) : K[X] := C a * ∑ k ∈ Finset.range n, (C a * X) ^ k

theorem coeff_geometricSeries {n k : Nat} (hk : k < n) (a : K) : (geometricSeries n a).coeff k = a ^ (k + 1) := by
  rw [geometricSeries, coeff_C_mul, finsetSum_coeff, pow_succ']
  simp only [mul_pow, ← C_pow, coeff_C_mul_X_pow, Finset.sum_ite_eq, Finset.mem_range, if_pos hk]

theorem X_sub_C_mul_geometricSeries {a b : K} (hab : a * b = 1) (n : Nat) :
    (X - C b) * geometricSeries n a = (C a * X) ^ n - 1 := by
  have factor : (X - C b) * C a = C a * X - 1 := by
    rw [← C_1, ← hab, C_mul]
    ring
  rw [geometricSeries, ← mul_assoc, factor, mul_comm, geom_sum_mul]

/-- If S is made of one geometric series for each position, the locator turns it into the evaluator, up to the sign. -/
theorem dvd_nodal_mul_add_evaluator {n : Nat} {S : K[X]} {a : Nat → K} (ha : ∀ i ∈ P, a i * v i = 1)
    (hS : ∀ k < n, S.coeff k = ∑ i ∈ P, w i * a i ^ (k + 1)) : X ^ n ∣ nodal P v * S + evaluator P v w := by
  have cut : X ^ n ∣ S - ∑ i ∈ P, C (w i) * geometricSeries n (a i) := by
    refine X_pow_dvd_iff.mpr fun k hk => ?_
    simp only [coeff_sub, hS k hk, finsetSum_coeff, coeff_C_mul, coeff_geometricSeries hk, sub_self]
  have term (i : Nat) (hi : i ∈ P) : nodal P v * (C (w i) * geometricSeries n (a i)) + C (w i) * nodal (P.erase i) v
      = X ^ n * (C (w i) * C (a i) ^ n * nodal (P.erase i) v) := by
    rw [nodal_eq_mul_nodal_erase hi]
    linear_combination C (w i) * nodal (P.erase i) v * X_sub_C_mul_geometricSeries (ha i hi) n
  have series : X ^ n ∣ nodal P v * (∑ i ∈ P, C (w i) * geometricSeries n (a i)) + evaluator P v w := by
    rw [evaluator, Finset.mul_sum, ← Finset.sum_add_distrib]
    exact Finset.dvd_sum fun i hi => Dvd.intro _ (term i hi).symm
  have := (cut.mul_left (nodal P v)).add series
  rwa [← add_assoc, ← mul_add, sub_add_cancel] at this

end

end Sys2Proof.Correction

/-! PROOFS. The errors of a received word (spec 46_decode.md R162(b)): the positions that arrived wrong or flagged, the
roots of the locators at them (43_syndrome_erasure.md R132), and the syndromes, which are those of the errors alone. -/

namespace Sys2Proof.Correction

open Sys2Proof.Machine hiding Field
open Polynomial Lagrange

/-! ### Positions and their roots -/

/-- The root of the locators at position i (43_syndrome_erasure.md R132). -/
def positionRoot (i : Nat) : Byte := aPow (255 - i)

/-- The position that `find_errors` gives that root is i again (45_forney.md R151(a)). -/
theorem rootPosition_positionRoot {i : Nat} (hi : i < 255) : rootPosition builtField (positionRoot i) = i := by
  rw [rootPosition, builtField_mul, positionRoot]
  rcases Nat.eq_zero_or_pos i with rfl | hpos
  · rw [Nat.sub_zero, show aPow 255 = aPow 0 from aPow_255, logA_aPow (by decide)]
  · rw [logA_aPow (by omega)]
    omega

theorem positionRoot_injOn : Set.InjOn positionRoot (Set.Iio 255) :=
  Set.LeftInvOn.injOn (f₁' := rootPosition builtField) fun _ hi => rootPosition_positionRoot hi

theorem aPow_mul_positionRoot {i : Nat} (hi : i < 255) : mulBitwise (aPow i) (positionRoot i) = 0x01#8 := by
  have := aPow_rootPosition (x := positionRoot i) (aPow_ne_zero _)
  rwa [rootPosition_positionRoot hi] at this

/-! ### The positions that arrived wrong or flagged -/

section
variable (cw received mask : List Byte)

/-- The flagged positions. -/
def erasedPositions : Finset Nat := {i ∈ Finset.range 255 | coef mask i ≠ 0x00#8}

/-- The unflagged positions at which the received word is wrong (R162(b)). -/
def errorPositions : Finset Nat :=
  {i ∈ Finset.range 255 | coef mask i = 0x00#8 ∧ coef received i ≠ coef cw i}

/-- The positions that `decode` has to locate. -/
def locatedPositions : Finset Nat := erasedPositions mask ∪ errorPositions cw received mask

/-- What was added to the codeword at position i. -/
def errorAt (i : Nat) : Byte := coef received i ^^^ coef cw i

variable {cw received mask} {i : Nat}

theorem disjoint_positions : Disjoint (erasedPositions mask) (errorPositions cw received mask) :=
  Finset.disjoint_filter.mpr fun _ _ hflag herr => hflag herr.1

theorem nodal_locatedPositions {K : Type} [Field K] (v : Nat → K) : nodal (locatedPositions cw received mask) v
    = nodal (erasedPositions mask) v * nodal (errorPositions cw received mask) v :=
  Finset.prod_union disjoint_positions

theorem lt_of_mem_locatedPositions (h : i ∈ locatedPositions cw received mask) : i < 255 := by
  obtain h | h := Finset.mem_union.mp h
  · exact Finset.mem_range.mp (Finset.mem_of_mem_filter i h)
  · exact Finset.mem_range.mp (Finset.mem_of_mem_filter i h)

theorem errorAt_eq_zero (hi : i < 255) (h : i ∉ locatedPositions cw received mask) :
    errorAt cw received i = 0x00#8 := by
  simp only [locatedPositions, erasedPositions, errorPositions, Finset.mem_union, Finset.mem_filter, Finset.mem_range,
    hi, true_and, not_or, not_and, not_not] at h
  obtain ⟨hunflagged, heq⟩ := h
  exact BitVec.xor_eq_zero_iff.mpr (heq hunflagged)

theorem errorAt_ne_zero (h : i ∈ errorPositions cw received mask) : errorAt cw received i ≠ 0x00#8 := by
  obtain ⟨-, -, hne⟩ := Finset.mem_filter.mp h
  exact mt BitVec.xor_eq_zero_iff.mp hne

theorem card_errorPositions : (errorPositions cw received mask).card = errorCount cw received mask := by
  rw [errorCount, List.countP_eq_length_filter]
  refine congrArg List.length (List.filter_congr fun i _ => ?_)
  rw [Bool.eq_iff_iff, decide_eq_true_iff, Bool.and_eq_true, Bool.not_eq_true', ← Bool.not_eq_true, flagged_iff,
    not_not, bne_iff_ne]

/-- Where the codeword vanishes, the received word has the value of the errors. -/
theorem polyValue_eq_gfSum_errorAt (hr : received.length = 255) (hcw : cw.length = 255) {x : Byte}
    (hx : polyValue cw x = 0x00#8) :
    polyValue received x = gfSum 255 fun i => mulBitwise (errorAt cw received i) (gfPow x i) := by
  calc polyValue received x = polyValue received x ^^^ polyValue cw x := by rw [hx, BitVec.xor_zero]
    _ = gfSum 255 fun i => mulBitwise (errorAt cw received i) (gfPow x i) := by
      rw [polyValue_eq_gfSum hr.le, polyValue_eq_gfSum hcw.le, ← gfSum_xor]
      exact gfSum_congr fun i _ => (mulBitwise_xor_left _ _ _).symm

end

/-! ### The nodes and the syndromes -/

section
variable {K : Type} [Field K] (φ : Byte → K)

/-- The root of position i as a field element. -/
def node (i : Nat) : K := φ (positionRoot i)

/-- The factor of position i's summand in the evaluator: the error, times a^(111·i) because the syndromes begin at
a^112 (45_forney.md R151). -/
def weight (cw received : List Byte) (i : Nat) : K := φ (errorAt cw received i) * φ (aPow i) ^ 111

variable {φ} (h : ByteEmbedding φ) {cw received mask : List Byte}
include h

theorem node_injOn {P : Finset Nat} (hP : ∀ i ∈ P, i < 255) : Set.InjOn (node φ) P := fun i hi j hj heq =>
  positionRoot_injOn (hP i hi) (hP j hj) (h.injective heq)

theorem aPow_mul_node {i : Nat} (hi : i < 255) : φ (aPow i) * node φ i = 1 := by
  rw [node, ← h.map_mul, aPow_mul_positionRoot hi, h.map_one]

theorem weight_ne_zero {i : Nat} (hi : i ∈ errorPositions cw received mask) : weight φ cw received i ≠ 0 :=
  mul_ne_zero (mt h.eq_zero_iff.mp (errorAt_ne_zero hi)) (pow_ne_zero _ (mt h.eq_zero_iff.mp (aPow_ne_zero i)))

theorem toPoly_erasureRounds (k : Nat) : toPoly φ (erasureRounds builtField mask k).1
    = nodal {i ∈ Finset.range k | coef mask i ≠ 0x00#8} (node φ) := by
  induction k with
  | zero => exact toPoly_zeros_append_one h 0
  | succ k ih =>
    rw [erasureRounds_succ, erasureRound, Finset.range_add_one, Finset.filter_insert]
    by_cases hflag : flagged (coef mask k) = true
    · rw [if_pos hflag, if_pos (flagged_iff.mp hflag), nodal_insert_eq_nodal (by simp), ← ih, builtField_mul,
        expA_eq_aPow, toPoly_mulByRoot h, mul_comm]
      rfl
    · rw [if_neg hflag, if_neg (mt flagged_iff.mpr hflag), ih]

theorem toPoly_erasureLocator :
    toPoly φ (erasureLocator builtField mask).1 = nodal (erasedPositions mask) (node φ) :=
  toPoly_erasureRounds h 255

theorem card_erasedPositions (hm : mask.length = 255) : (erasedPositions mask).card = erasureCount mask := by
  rw [← natDegree_nodal (v := node φ), ← toPoly_erasureLocator h, natDegree_toPoly h,
    (monicOfDegree_erasureLocator builtField mask).deg_eq, erasureLocator_count hm]

/-- The syndromes as the sum of one geometric series for each position (43_syndrome_erasure.md R130). -/
theorem coeff_syndromes {n k : Nat} (hr : received.length = 255) (hcw : cw.length = 255)
    (hzero : ∀ i, i < n → polyValue cw (aPow (112 + i)) = 0x00#8) (hk : k < n) :
    (toPoly φ (syndromes builtField received n)).coeff k =
      ∑ i ∈ locatedPositions cw received mask, weight φ cw received i * φ (aPow i) ^ (k + 1) := by
  have term (i : Nat) : φ (mulBitwise (errorAt cw received i) (gfPow (aPow (112 + k)) i))
      = weight φ cw received i * φ (aPow i) ^ (k + 1) := by
    rw [h.map_mul, weight, h.map_gfPow, h.map_aPow, h.map_aPow]
    ring
  rw [coeff_toPoly h, syndromes_builtField, coef_map_range, if_pos hk,
    polyValue_eq_gfSum_errorAt hr hcw (hzero k hk), h.map_gfSum, Finset.sum_congr rfl fun i _ => term i]
  refine (Finset.sum_subset (fun i hi => ?_) fun i hi hnot => ?_).symm
  · exact Finset.mem_range.mpr (lt_of_mem_locatedPositions hi)
  · rw [weight, errorAt_eq_zero (Finset.mem_range.mp hi) hnot, h.map_zero, zero_mul, zero_mul]

end

end Sys2Proof.Correction

/-! PROOFS. Forney's formula (spec 45_forney.md R151): from a locator and an evaluator of the errors, up to a common
factor, `find_errors` finds exactly the located positions, and the corrections restore the codeword. -/

namespace Sys2Proof.Correction

open Sys2Proof.Machine hiding Field
open Polynomial Lagrange

theorem mem_rootList {sigma : List Byte} {x : Byte} : x ∈ rootList sigma ↔ polyValue sigma x = 0x00#8 := by
  have : x ∈ (List.range 256).map byteOf := List.mem_map.mpr ⟨x.toNat, List.mem_range.mpr x.isLt, byteOf_toNat x⟩
  simp only [rootList, List.mem_filter, this, true_and, beq_iff_eq]

theorem nodup_rootList (sigma : List Byte) : (rootList sigma).Nodup := by
  refine List.Nodup.filter _ (List.Nodup.map_on (fun i hi j hj heq => ?_) List.nodup_range)
  rw [← toNat_byteOf (List.mem_range.mp hi), heq, toNat_byteOf (List.mem_range.mp hj)]

/-- sigma and omega are the locator of the positions P and the evaluator of the errors at them, up to the factor c. -/
structure Locates {K : Type} [Field K] (φ : Byte → K) (cw received : List Byte) (P : Finset Nat) (c : K)
    (sigma omega : List Byte) : Prop where
  scale_ne_zero : c ≠ 0
  positions : ∀ i ∈ P, i < 255
  locator : toPoly φ sigma = C c * nodal P (node φ)
  values : toPoly φ omega = C c * evaluator P (node φ) (weight φ cw received)

section
variable {K : Type} [Field K] {φ : Byte → K} (h : ByteEmbedding φ) {cw received sigma omega : List Byte}
  {P : Finset Nat} {c : K} (hloc : Locates φ cw received P c sigma omega) {i : Nat}
include h hloc

/-! ### The roots -/

theorem mem_rootList_iff {x : Byte} : x ∈ rootList sigma ↔ ∃ i ∈ P, x = positionRoot i := by
  rw [mem_rootList, ← h.eq_zero_iff, ← eval_toPoly h, hloc.locator, eval_C_mul,
    mul_eq_zero_iff_left hloc.scale_ne_zero, eval_nodal, Finset.prod_eq_zero_iff]
  simp only [sub_eq_zero, node, h.injective.eq_iff]

theorem length_rootList : (rootList sigma).length = P.card := by
  have image : (rootList sigma).toFinset = P.image positionRoot := by
    ext x
    simp only [List.mem_toFinset, mem_rootList_iff h hloc, Finset.mem_image, eq_comm]
  rw [← List.toFinset_card_of_nodup (nodup_rootList sigma), image, Finset.card_image_of_injOn]
  exact fun i hi j hj => positionRoot_injOn (hloc.positions i hi) (hloc.positions j hj)

theorem positionRoot_mem_rootList_iff (hi : i < 255) : positionRoot i ∈ rootList sigma ↔ i ∈ P := by
  rw [mem_rootList_iff h hloc]
  refine ⟨fun ⟨j, hj, heq⟩ => ?_, fun hmem => ⟨i, hmem, rfl⟩⟩
  rwa [positionRoot_injOn hi (hloc.positions j hj) heq]

/-- A position has one root, if it is located. -/
theorem filter_rootList (hi : i < 255) :
    (rootList sigma).filter (fun x => rootPosition builtField x == i) = if i ∈ P then [positionRoot i] else [] := by
  have itself : (rootList sigma).filter (fun x => rootPosition builtField x == i)
      = (rootList sigma).filter (· == positionRoot i) := by
    refine List.filter_congr fun x hx => ?_
    obtain ⟨j, hj, rfl⟩ := (mem_rootList_iff h hloc).mp hx
    have hj := hloc.positions j hj
    rw [rootPosition_positionRoot hj, Bool.eq_iff_iff, beq_iff_eq, beq_iff_eq, positionRoot_injOn.eq_iff hj hi]
  have member := positionRoot_mem_rootList_iff h hloc hi
  rw [itself, List.filter_beq]
  split
  · next hmem => rw [List.count_eq_one_of_mem (nodup_rootList sigma) (member.mpr hmem)]; rfl
  · next hmem => rw [List.count_eq_zero_of_not_mem (mt member.mp hmem)]; rfl

/-! ### The values -/

theorem map_derivValue_positionRoot (hi : i ∈ P) :
    φ (derivValue sigma (positionRoot i)) = c * (nodal (P.erase i) (node φ)).eval (node φ i) := by
  rw [← eval_derivative_toPoly h, hloc.locator, derivative_C_mul, eval_C_mul,
    ← eval_nodal_derivative_eval_node_eq (v := node φ) hi]
  rfl

theorem map_polyValue_positionRoot (hi : i ∈ P) : φ (polyValue omega (positionRoot i))
    = c * (weight φ cw received i * (nodal (P.erase i) (node φ)).eval (node φ i)) := by
  rw [← eval_toPoly h, hloc.values, eval_C_mul, ← eval_evaluator hi]
  rfl

/-- At a root, x^111 · omega(x) is the error times the derivative of sigma, which is not zero there. -/
theorem rootValue_positionRoot (hi : i ∈ P) :
    rootValue builtField sigma omega (positionRoot i) = errorAt cw received i := by
  have derivative_ne : derivValue sigma (positionRoot i) ≠ 0x00#8 := by
    rw [Ne, ← h.eq_zero_iff, map_derivValue_positionRoot h hloc hi]
    exact mul_ne_zero hloc.scale_ne_zero (eval_nodal_erase_ne_zero (node_injOn h hloc.positions) hi)
  have unit : φ (aPow i) ^ 111 * φ (positionRoot i) ^ 111 = 1 := by
    rw [← mul_pow, ← h.map_mul, aPow_mul_positionRoot (hloc.positions i hi), h.map_one, one_pow]
  have forney : mulBitwise (gfPow (positionRoot i) 111) (polyValue omega (positionRoot i))
      = mulBitwise (errorAt cw received i) (derivValue sigma (positionRoot i)) := by
    apply h.injective
    rw [h.map_mul, h.map_mul, h.map_gfPow, map_polyValue_positionRoot h hloc hi,
      map_derivValue_positionRoot h hloc hi, weight]
    linear_combination φ (errorAt cw received i) * c * (nodal (P.erase i) (node φ)).eval (node φ i) * unit
  rw [rootValue_builtField, forney, mulBitwise_assoc, mulBitwise_gfPow_254 derivative_ne, mulBitwise_one_right]

/-! ### The corrected word -/

/-- Where every position outside P arrived right, the corrections restore the codeword. -/
theorem corrected_eq (hcw : cw.length = 255) (hright : ∀ i < 255, i ∉ P → errorAt cw received i = 0x00#8) :
    corrected received ((rootList sigma).map (correctionOf sigma omega)) = cw := by
  refine eq_of_coef ((length_corrected _ _).trans hcw.symm) fun i => ?_
  by_cases hi : i < 255
  · rw [coef_corrected _ _ hi, List.filter_map]
    simp only [Function.comp_def, toNat_correctionOf]
    rw [filter_rootList h hloc hi]
    split
    · next hmem =>
      show coef received i ^^^ rootValue builtField sigma omega (positionRoot i) = coef cw i
      rw [rootValue_positionRoot h hloc hmem, errorAt, ← BitVec.xor_assoc, BitVec.xor_self, BitVec.zero_xor]
    · next hmem => exact BitVec.xor_eq_zero_iff.mp (hright i hi hmem)
  · rw [coef_of_length_le (by rw [length_corrected]; omega), coef_of_length_le (by omega)]

end

end Sys2Proof.Correction

/-! PROOFS. DECODE within the radius (spec 46_decode.md R162, 44_euclid.md R143): the pair that `euclid` returns is the
locator of the errors and the evaluator of all located positions, up to a constant, so that the search finds exactly
those positions. -/

namespace Sys2Proof.Correction

open Sys2Proof.Machine hiding Field
open Polynomial Lagrange

/-- A codeword for n parity symbols, and a received word with a mask within the radius of it (R162(b)). -/
structure WithinRadius (n : Nat) (cw received mask : List Byte) : Prop where
  parity : 1 ≤ n
  cwLength : cw.length = 255
  receivedLength : received.length = 255
  maskLength : mask.length = 255
  codeword : ∀ i, i < n → polyValue cw (aPow (112 + i)) = 0x00#8
  radius : 2 * errorCount cw received mask + erasureCount mask ≤ n

section
variable {n : Nat} {cw received mask : List Byte} (hrad : WithinRadius n cw received mask)
include hrad

theorem erasureCount_le : erasureCount mask ≤ n := (Nat.le_add_left _ _).trans hrad.radius

section
variable {K : Type} [Field K] {φ : Byte → K} (h : ByteEmbedding φ)
include h

theorem card_locatedPositions :
    (locatedPositions cw received mask).card = errorCount cw received mask + erasureCount mask := by
  rw [locatedPositions, Finset.card_union_of_disjoint disjoint_positions, card_erasedPositions h hrad.maskLength,
    card_errorPositions, Nat.add_comm]

/-- The locator of the errors and the evaluator of all located positions solve `euclid`'s key equation (R141(b)). -/
theorem dvd_errorLocator_mul_decodeProduct :
    X ^ n ∣ nodal (errorPositions cw received mask) (node φ) * toPoly φ (decodeProduct received mask n)
      - evaluator (locatedPositions cw received mask) (node φ) (weight φ cw received) := by
  have := h.charP_two
  have key := dvd_nodal_mul_add_evaluator (v := node φ) (a := fun i => φ (aPow i))
    (fun i hi => aPow_mul_node h (lt_of_mem_locatedPositions hi))
    fun k hk => coeff_syndromes h (mask := mask) hrad.receivedLength hrad.cwLength hrad.codeword hk
  rwa [nodal_locatedPositions, mul_assoc, mul_left_comm, ← toPoly_erasureLocator h, ← toPoly_multiply h,
    ← CharTwo.sub_eq_add] at key

/-- R143: within the radius `euclid` returns that solution, up to a constant: its bounded stop leaves no room for
another one. -/
theorem exists_scale_of_decodePair : ∃ c, c ≠ 0 ∧
    toPoly φ (decodePair received mask n).t = C c * nodal (errorPositions cw received mask) (node φ) ∧
    toPoly φ (decodePair received mask n).r
      = C c * evaluator (locatedPositions cw received mask) (node φ) (weight φ cw received) := by
  have hs := erasureCount_le hrad
  obtain ⟨other, result⟩ : ∃ o, EuclidResult n (euclidBound n (erasureCount mask)) (decodeProduct received mask n)
    (decodePair received mask n) o := exists_euclidResult _ hrad.parity hs
  have bound := euclidBound_succ hrad.parity hs
  have radius := hrad.radius
  have coprime := isCoprime_nodal_evaluator (T := errorPositions cw received mask)
    (node_injOn h fun _ => lt_of_mem_locatedPositions) Finset.subset_union_right fun i hi => weight_ne_zero h hi
  refine exists_scale_of_solutions (dvd_errorLocator_mul_decodeProduct hrad h) (dvd_of_keyEquation h result.inv.left)
    (dvd_of_keyEquation h result.inv.right) (toPoly_cross h result.inv) coprime nodal_ne_zero ?_ ?_
  · have degrees := result.inv.degrees.left
    have above := result.above
    have values := natDegree_evaluator_le (P := locatedPositions cw received mask) (v := node φ)
      (w := weight φ cw received)
    rw [card_locatedPositions hrad h] at values
    refine natDegree_mul_le.trans_lt ?_
    rw [natDegree_toPoly h]
    omega
  · have within := result.within
    refine natDegree_mul_le.trans_lt ?_
    rw [natDegree_toPoly h, natDegree_nodal, card_errorPositions]
    omega

theorem decodeCount_eq : decodeCount received mask n = errorCount cw received mask + erasureCount mask := by
  obtain ⟨c, hc, ht, -⟩ := exists_scale_of_decodePair hrad h
  rw [decodeCount, ← natDegree_toPoly h, ht, natDegree_C_mul hc, natDegree_nodal, card_errorPositions]

/-- The combined sigma locates errors and erasures together (46_decode.md R160). -/
theorem exists_locates : ∃ c, Locates φ cw received (locatedPositions cw received mask) c
    (decodeSigma received mask n) (decodePair received mask n).r := by
  obtain ⟨c, hc, ht, hr⟩ := exists_scale_of_decodePair hrad h
  refine ⟨c, hc, fun _ => lt_of_mem_locatedPositions, ?_, hr⟩
  rw [decodeSigma, toPoly_multiply h, ht, toPoly_erasureLocator h, mul_left_comm, ← nodal_locatedPositions]

end

/-- R162(b), for the algorithm. -/
theorem rsDecode_of_withinRadius :
    rsDecode builtField received mask n = some (cw, errorCount cw received mask + erasureCount mask) := by
  obtain ⟨K, _, φ, h⟩ := exists_byteEmbedding
  obtain ⟨c, hloc⟩ := exists_locates hrad h
  have count := decodeCount_eq hrad h
  have roots : (rootList (decodeSigma received mask n)).length = decodeCount received mask n := by
    rw [length_rootList h hloc, card_locatedPositions hrad h, count]
  rw [rsDecode_of_roots hrad.receivedLength hrad.maskLength (erasureCount_le hrad) roots, count,
    corrected_eq h hloc hrad.cwLength fun i hi => errorAt_eq_zero hi]

end

/-! ### The guarantees of R162 -/

section
variable {s : State} {n : Byte} {message cw received mask : List Byte}

/-- What ENCODE answers is a codeword (42_encoder.md R122). -/
theorem codeword_of_exec_encode (hb : TablesBuilt s) (hn : parityInRange n = true)
    (hm : message.length = 255 - n.toNat) (he : exec (.encode n message) s = .next (s.answered .ok cw)) :
    cw.length = 255 ∧ ∀ i, i < n.toNat → polyValue cw (aPow (112 + i)) = 0x00#8 := by
  obtain ⟨answer, -⟩ := encodeAnswersTheSystematicCodeword s
  obtain ⟨cw', hexec, hlen, -, hzero⟩ := answer hb n message hn hm
  cases he.symm.trans hexec
  exact ⟨hlen, hzero⟩

end

/-- Settles O47: with 2e + s at most n, `euclid` returns the locator of the errors, up to a constant, and the search and
Forney's formula give the located positions and the errors at them. -/
theorem decodeCorrectsWithinTheRadius : Obligations.DecodeCorrectsWithinTheRadius := by
  intro s n message cw received mask hb hn hm hreceived hmask he hradius
  obtain ⟨hparity, -⟩ := parityInRange_iff.mp hn
  obtain ⟨hcw, hzero⟩ := codeword_of_exec_encode hb hn hm he
  exact exec_decode_of_rsDecode_some hb hn hreceived hmask
    (rsDecode_of_withinRadius ⟨hparity, hcw, hreceived, hmask, hzero, hradius⟩)

/-- Settles O46: the case without errors of O47. -/
theorem decodeFillsErasures : Obligations.DecodeFillsErasures := by
  intro s n message cw received mask hb hn hm hreceived hmask he herrors hle
  have decoded := decodeCorrectsWithinTheRadius s n message cw received mask hb hn hm hreceived hmask he (by omega)
  rwa [herrors, Nat.zero_add] at decoded

/-- Settles O45: the case without erasures of O46, the codeword itself being received. -/
theorem decodeOfEncodedWordIsClean : Obligations.DecodeOfEncodedWordIsClean := by
  intro s n message hb hn hm
  obtain ⟨answer, -⟩ := encodeAnswersTheSystematicCodeword s
  obtain ⟨cw, he, hcw, -⟩ := answer hb n message hn hm
  have noErasures : erasureCount (zeros 255) = 0 := List.countP_eq_zero.mpr fun b hb => by
    rw [List.eq_of_mem_replicate hb]
    decide
  have noErrors : errorCount cw cw (zeros 255) = 0 := by simp [errorCount]
  have decoded := decodeFillsErasures s n message cw cw (zeros 255) hb hn hm hcw (length_zeros 255) he noErrors
    (noErasures.trans_le (Nat.zero_le _))
  rw [noErasures] at decoded
  exact ⟨cw, he, decoded⟩

end Sys2Proof.Correction

/-! PROOFS. Refusals and the end of every command (spec 60_exceptions.md R170, R172, R176), reset
(70_reset_and_hazards.md R190, R191), and operands of a length that no packet carries (log 3). -/

namespace Sys2Proof.Machine

/-! ### Nothing stops the core -/

theorem Answers.exists_next {s : State} {r : Result} (h : Answers s r) : ∃ t, r = .next t :=
  h.imp' _ fun _ => id

theorem exec_exists_next (i : Instr) (s : State) : ∃ t, exec i s = .next t := by
  by_cases hi : i = .init
  · subst hi
    obtain ⟨-, refused⟩ | ⟨-, built⟩ := execInit_cases s
    · exact ⟨_, refused⟩
    · exact ⟨_, built⟩
  · exact (answers_exec s hi).exists_next

theorem runPacket_exists_next (op : Byte) (fields : List Byte) (s : State) : ∃ t, runPacket op fields s = .next t := by
  cases hd : Sys2Proof.decode (op :: fields) with
  | ok i => exact runPacket_of_decode_ok s hd ▸ exec_exists_next i s
  | error e => exact runPacket_of_decode_error s hd ▸ (answers_refusePacket e s).exists_next

/-- Settles O11: `INIT` is refused or builds the tables, every other command ends with a response, and so does a packet
that is refused; a step that runs no packet has its next state written out. -/
theorem nothingStopsTheCore : Obligations.NothingStopsTheCore := by
  refine ⟨exec_exists_next, fun s => ?_⟩
  obtain ⟨-, idle⟩ | ⟨_, _, _, _, -, -, waiting⟩ | ⟨op, fields, rest, -, -, packet⟩ | ⟨_, -, taken⟩ | ⟨_, -, reset⟩ :=
    step_cases s
  · exact ⟨_, idle⟩
  · exact ⟨_, waiting⟩
  · exact packet ▸ runPacket_exists_next op fields { s with host := rest }
  · exact ⟨_, taken⟩
  · exact ⟨_, reset⟩

/-! ### A refusal is its status byte alone -/

/-- Where the result is a refusal, it is the status byte alone and `s` is not written otherwise (R172, R176). A result
that is no refusal may write what it likes, as `INIT` does. -/
def RefusesAlone (s : State) (r : Result) : Prop :=
  ∀ t p, r = .next t → t.rsp = some p → p.status.isRefusal = true → t = s.answered p.status []

section
variable {s : State} {k : Result}

theorem refusesAlone_raise (s : State) (st : Status) : RefusesAlone s (raise st s) := by
  intro t p hr hp _
  cases hr
  cases hp
  rfl

/-- OK and UNCORRECTABLE are no refusals, whatever state `s'` they leave. -/
theorem refusesAlone_respond {st : Status} (h : st.isRefusal = false) (payload : List Byte) (s' : State) :
    RefusesAlone s (respond st payload s') := by
  intro t p hr hp hst
  cases hr
  cases hp
  exact absurd (h.symm.trans hst) Bool.false_ne_true

theorem refusesAlone_guardInit {op : Opcode} (hk : RefusesAlone s k) : RefusesAlone s (guardInit op s k) := by
  obtain ⟨st, -, -, raised⟩ | ⟨-, passed⟩ := guardInit_cases op s k
  · exact raised ▸ refusesAlone_raise s st
  · exact passed.symm ▸ hk

theorem refusesAlone_guardParity {n : Byte} (hk : RefusesAlone s k) : RefusesAlone s (guardParity n s k) := by
  unfold guardParity
  split
  · exact hk
  · exact refusesAlone_raise s _

theorem refusesAlone_guardLength {w : List Byte} {len : Nat} (hk : RefusesAlone s k) :
    RefusesAlone s (guardLength w len s k) := by
  unfold guardLength
  split
  · exact hk
  · exact refusesAlone_raise s _

end

/-- Every command refuses by raising a status, in its checks or, for PMUL, in place of its answer. -/
theorem refusesAlone_exec (i : Instr) (s : State) : RefusesAlone s (exec i s) := by
  cases i with
  | init | gfmul | gfinv | gflog | gfexp | gfpow111 | peval =>
    exact refusesAlone_guardInit (refusesAlone_respond rfl _ _)
  | genpoly => exact refusesAlone_guardInit (refusesAlone_guardParity (refusesAlone_respond rfl _ _))
  | encode | synd =>
    exact refusesAlone_guardInit (refusesAlone_guardParity (refusesAlone_guardLength (refusesAlone_respond rfl _ _)))
  | eraloc => exact refusesAlone_guardInit (refusesAlone_guardLength (refusesAlone_respond rfl _ _))
  | pmul p q =>
    refine refusesAlone_guardInit ?_
    split
    · exact refusesAlone_raise s _
    · exact refusesAlone_respond rfl _ _
  | euclid n c product =>
    refine refusesAlone_guardInit (refusesAlone_guardParity ?_)
    split <;> exact refusesAlone_respond rfl _ _
  | finderr d sigma omega =>
    refine refusesAlone_guardInit ?_
    split <;> exact refusesAlone_respond rfl _ _
  | decode n received mask =>
    refine refusesAlone_guardInit (refusesAlone_guardParity (refusesAlone_guardLength (refusesAlone_guardLength ?_)))
    split <;> exact refusesAlone_respond rfl _ _

theorem code_of_isRefusal {st : Status} (h : st.isRefusal = true) :
    0xE0 ≤ st.code.toNat ∧ st.code.toNat ≤ 0xE4 := by
  cases st with
  | ok | uncorrectable => exact absurd h Bool.false_ne_true
  | errNotInit | errAlreadyInit | errOpcode | errParam | errLength => decide

/-- Settles O16: a refusal is raised on the state as it stood, and its status is one of the five of R170. -/
theorem refusalIsTheStatusByteAlone : Obligations.RefusalIsTheStatusByteAlone := by
  intro i s t r hexec hr href
  have alone : t = s.answered r.status [] := refusesAlone_exec i s t r hexec hr href
  have bare : ⟨r.status, []⟩ = r := Option.some.inj ((alone ▸ hr : (s.answered r.status []).rsp = some r))
  obtain ⟨lower, upper⟩ := code_of_isRefusal href
  exact ⟨congrArg Response.bytes bare.symm, lower, upper, alone⟩

/-! ### Reset -/

/-- Settles O9: a reset step leaves the reset state, whose memories list no cell, with the host events that follow. -/
theorem resetEventClearsTheCore : Obligations.ResetEventClearsTheCore :=
  fun _ _ hh => ⟨_, step_of_reset hh, rfl, fun addr => ⟨Memory.read_nil addr, Memory.read_nil addr⟩, rfl, rfl, rfl⟩

/-! ### Operands of a length that no packet carries -/

section
variable {s : State} {n : Byte}

theorem guardLength_of_ne {w : List Byte} {len : Nat} (k : Result) (h : w.length ≠ len) :
    guardLength w len s k = .next (s.answered .errLength []) := if_neg h

theorem exec_encode_of_length_ne (hs : s.initd = true) (hn : parityInRange n = true) {message : List Byte}
    (h : message.length ≠ 255 - n.toNat) : exec (.encode n message) s = .next (s.answered .errLength []) :=
  (guardInit_of_initd _ hs Opcode.noConfusion).trans ((guardParity_of_legal _ hn).trans (guardLength_of_ne _ h))

theorem exec_synd_of_length_ne (hs : s.initd = true) (hn : parityInRange n = true) {word : List Byte}
    (h : word.length ≠ 255) : exec (.synd n word) s = .next (s.answered .errLength []) :=
  (guardInit_of_initd _ hs Opcode.noConfusion).trans ((guardParity_of_legal _ hn).trans (guardLength_of_ne _ h))

theorem exec_eraloc_of_length_ne (hs : s.initd = true) {mask : List Byte} (h : mask.length ≠ 255) :
    exec (.eraloc mask) s = .next (s.answered .errLength []) :=
  (guardInit_of_initd _ hs Opcode.noConfusion).trans (guardLength_of_ne _ h)

theorem exec_decode_of_length_ne (hs : s.initd = true) (hn : parityInRange n = true) {received mask : List Byte}
    (h : received.length ≠ 255 ∨ mask.length ≠ 255) :
    exec (.decode n received mask) s = .next (s.answered .errLength []) := by
  refine (guardInit_of_initd _ hs Opcode.noConfusion).trans ((guardParity_of_legal _ hn).trans ?_)
  by_cases hr : received.length = 255
  · exact (guardLength_of_eq _ hr).trans (guardLength_of_ne _ (h.resolve_left (not_not_intro hr)))
  · exact guardLength_of_ne _ hr

end

/-- Settles O22: the earlier checks pass, and the length check of the word or mask is the one that refuses. -/
theorem wordOperandsOfWrongLengthAreRefused : Obligations.WordOperandsOfWrongLengthAreRefused :=
  fun _ _ _ _ hs hn => ⟨exec_encode_of_length_ne hs hn, exec_synd_of_length_ne hs hn, exec_eraloc_of_length_ne hs,
    exec_decode_of_length_ne hs hn⟩

end Sys2Proof.Machine
